-- ==== Sys2Proof/Word.lean ====
section
/-! DEFINITION. The words of the block: bytes, 16-bit readings, 24-bit command words and single bits (00_scope.md R8,
R10). Every value is unsigned. -/

namespace Sys2Proof

/-- The unit of an I2C transfer, and the width of a sensor register address (R8). -/
abbrev Byte := BitVec 8

/-- A channel reading, and the width of a result register (R8). -/
abbrev Half := BitVec 16

/-- A command word (R8, R97). -/
abbrev Word := BitVec 24

/-- One bit of data: an acknowledge bit or a transfer direction. -/
abbrev Bit := BitVec 1

end Sys2Proof
end

