-- ==== Sys2Proof/Syntax.lean ====
section
/-! DEFINITION. The host's commands, one constructor for each row of spec/opcode_table.json (30_encoding.md R98). -/

namespace Sys2Proof

/-- The fifteen commands of 30_encoding.md R98, in the table's order. An operand is an 8-bit unsigned value (R99). -/
inductive Instr
  /-- initialize (R121) -/
  | init
  /-- start condition (R122) -/
  | start
  /-- repeated start (R123) -/
  | restart
  /-- stop condition (R124) -/
  | stop
  /-- send acknowledge (R125) -/
  | ack
  /-- send not-acknowledge (R126) -/
  | nack
  /-- await idle (R127) -/
  | idle
  /-- send byte `b` (R128) -/
  | send (b : Byte)
  /-- read byte (R129) -/
  | read
  /-- write value `v` to sensor register `r` (R151) -/
  | writeReg (r v : Byte)
  /-- read sensor register `r` (R152) -/
  | readReg (r : Byte)
  /-- read the 16-bit value at sensor register `r` (R153) -/
  | read16 (r : Byte)
  /-- read the channel set (R154) -/
  | readChannels
  /-- power on and configure the sensor (R155) -/
  | enable
  /-- power the sensor down (R156) -/
  | disable
  deriving DecidableEq, Repr

end Sys2Proof
end

