-- ==== Sys2Proof/WellFormed.lean ====
section
/-! DEFINITION. The command-word format and which words are legal (30_encoding.md R97, R98, R100). -/

namespace Sys2Proof

/-- The three formats of R97: which of the fields A and B carry an operand. -/
inductive Format
  /-- neither field -/
  | n
  /-- A only -/
  | a
  /-- A and B -/
  | ab
  deriving DecidableEq, Repr

/-- The bits a decoder compares for a format (R98). -/
def Format.mask : Format → Word
  | .n => 0xFFFFFF#24
  | .a => 0xFF00FF#24
  | .ab => 0xFF0000#24

/-- One row of the opcode map (R98). -/
structure Row where
  op : Byte
  format : Format
  mnemonic : String
  deriving DecidableEq, Repr

/-- The opcode map (R98). -/
def opcodeMap : List Row :=
  [⟨0x01, .n, "INIT"⟩, ⟨0x02, .n, "START"⟩, ⟨0x03, .n, "RESTART"⟩, ⟨0x04, .n, "STOP"⟩, ⟨0x05, .n, "ACK"⟩,
   ⟨0x06, .n, "NACK"⟩, ⟨0x07, .n, "IDLE"⟩, ⟨0x08, .a, "SEND"⟩, ⟨0x09, .n, "READ"⟩] ++
  [⟨0x10, .ab, "WRITE_REG"⟩, ⟨0x11, .a, "READ_REG"⟩, ⟨0x12, .a, "READ16"⟩, ⟨0x13, .n, "READ_CHANNELS"⟩,
   ⟨0x14, .n, "ENABLE"⟩, ⟨0x15, .n, "DISABLE"⟩]

/-- The three fields of a command word (R97). -/
structure Fields where
  op : Byte
  a : Byte
  b : Byte
  deriving DecidableEq, Repr

/-- The fields of a word: OP is bits 23:16, A bits 15:8, B bits 7:0 (R97). -/
def Fields.ofWord (w : Word) : Fields :=
  ⟨w.extractLsb' 16 8, w.extractLsb' 8 8, w.extractLsb' 0 8⟩

/-- Every field that the format marks "must be 0x00" is 0x00 (R97). -/
def Format.zeroesHold : Format → Fields → Bool
  | .n, f => f.a == 0 && f.b == 0
  | .a, f => f.b == 0
  | .ab, _ => true

/-- OP is a row of the opcode map, and every must-be-zero field of that row is 0x00 (R97). -/
def Fields.legal (f : Fields) : Bool :=
  match opcodeMap.find? (fun row => row.op == f.op) with
  | some row => row.format.zeroesHold f
  | none => false

/-- `legal(w)` of R97. -/
def legal (w : Word) : Bool := (Fields.ofWord w).legal

/-- The word matches a row under the row's mask (R98, "Match and mask for a decoder"). -/
def Row.matchesWord (row : Row) (w : Word) : Bool :=
  w &&& row.format.mask == (row.op ++ (0#16) : BitVec 24)

/-- How an instruction fills the three fields (R97, R98, R99): an operand stands in its field unchanged, and a field
without an operand is 0x00. -/
def Instr.fields : Instr → Fields
  | .init => ⟨0x01, 0, 0⟩
  | .start => ⟨0x02, 0, 0⟩
  | .restart => ⟨0x03, 0, 0⟩
  | .stop => ⟨0x04, 0, 0⟩
  | .ack => ⟨0x05, 0, 0⟩
  | .nack => ⟨0x06, 0, 0⟩
  | .idle => ⟨0x07, 0, 0⟩
  | .send b => ⟨0x08, b, 0⟩
  | .read => ⟨0x09, 0, 0⟩
  | .writeReg r v => ⟨0x10, r, v⟩
  | .readReg r => ⟨0x11, r, 0⟩
  | .read16 r => ⟨0x12, r, 0⟩
  | .readChannels => ⟨0x13, 0, 0⟩
  | .enable => ⟨0x14, 0, 0⟩
  | .disable => ⟨0x15, 0, 0⟩

/-- An instruction is well formed when its fields are legal. The operands' types already bound them to 8 bits, so every
instruction is (Laws/PerInstr.lean proves it); what can be ill formed is a word. -/
def Instr.wellFormed (i : Instr) : Bool := i.fields.legal

end Sys2Proof
end

