-- ==== Sys2Proof/Decode.lean ====
section
/-! DEFINITION. The decoder of command words, total and rejecting by name, and the encoder (30_encoding.md R97 to R101).
A command word is one 24-bit value handed over whole, so it has no byte order (20_memory.md R71). -/

namespace Sys2Proof

/-- Why a word is no command (R100). -/
inductive Reject
  /-- OP is no row of the opcode map. -/
  | unassignedOp (op : Byte)
  /-- The format requires A to be 0x00. -/
  | nonzeroA (a : Byte)
  /-- The format requires B to be 0x00. -/
  | nonzeroB (b : Byte)
  deriving DecidableEq, Repr

/-- What the decoder answers. -/
inductive Decoded
  | command (i : Instr)
  | illegal (r : Reject)
  deriving DecidableEq, Repr

/-- Format N: A and B must be 0x00 (R97). -/
def decodeN (f : Fields) (i : Instr) : Decoded :=
  if f.a = 0 then if f.b = 0 then .command i else .illegal (.nonzeroB f.b) else .illegal (.nonzeroA f.a)

/-- Format A: A is the operand, B must be 0x00 (R97). -/
def decodeA (f : Fields) (i : Byte → Instr) : Decoded :=
  if f.b = 0 then .command (i f.a) else .illegal (.nonzeroB f.b)

/-- Format AB: A and B are operands (R97). -/
def decodeAB (f : Fields) (i : Byte → Byte → Instr) : Decoded := .command (i f.a f.b)

/-- The opcode map read as a decoder (R98); every other OP is illegal (R100). -/
def decodeFields (f : Fields) : Decoded :=
  match f.op.toNat with
  | 0x01 => decodeN f .init
  | 0x02 => decodeN f .start
  | 0x03 => decodeN f .restart
  | 0x04 => decodeN f .stop
  | 0x05 => decodeN f .ack
  | 0x06 => decodeN f .nack
  | 0x07 => decodeN f .idle
  | 0x08 => decodeA f .send
  | 0x09 => decodeN f .read
  | 0x10 => decodeAB f .writeReg
  | 0x11 => decodeA f .readReg
  | 0x12 => decodeA f .read16
  | 0x13 => decodeN f .readChannels
  | 0x14 => decodeN f .enable
  | 0x15 => decodeN f .disable
  | _ => .illegal (.unassignedOp f.op)

/-- Decoding never depends on state (R101). -/
def decode (w : Word) : Decoded := decodeFields (Fields.ofWord w)

/-- OP in bits 23:16, A in bits 15:8, B in bits 7:0 (R97). -/
def Fields.toWord (f : Fields) : Word := f.op ++ f.a ++ f.b

/-- The command word of an instruction (R97 to R99, R103). -/
def encode (i : Instr) : Word := i.fields.toWord

/-- The instruction a decoder's answer holds. -/
def Decoded.toOption : Decoded → Option Instr
  | .command i => some i
  | .illegal _ => none

/-- The instruction the decoder reads from `nbits` bits `w`, numbered as the opcode table numbers them; the bits above
`nbits` are zero. -/
def decodeTableWord (nbits w : Nat) : Option Instr :=
  (decode (BitVec.ofNat 24 (w % 2 ^ nbits))).toOption

end Sys2Proof
end

