-- ==== Sys2Proof/Config.lean ====
section
/-! DEFINITION. What the spec leaves to the implementation and to the outside: the OPEN parameters of 00_scope.md R8,
the peer's draws (20_memory.md R66) and the engine's scheduling (R70). All are uninterpreted, so no proof can see a
value. Literals that the spec fixes stand in Machine/Operands.lean. -/

namespace Sys2Proof

/-- The kinds of settling delay (41_sensor_protocol.md R150). -/
inductive DelayKind
  /-- `STEP`, after a transport step -/
  | step
  /-- `SETTLE`, after the stop of a register read -/
  | settle
  /-- `POWER`, between the first two writes of `ENABLE` -/
  | power
  deriving DecidableEq, Repr, Inhabited

/-- Who acts next where the engine has an enabled step (20_memory.md R70): the agents "interleave in any order the
enabling conditions allow", and an enabled engine step "may be postponed". -/
inductive Turn
  /-- the sequencer if it has a step, else the engine -/
  | sequencerFirst
  /-- the engine -/
  | engineFirst
  /-- the engine postpones its step, and the run of the block rests here -/
  | pause
  deriving DecidableEq, Repr, Inhabited

/-- The OPEN parameters of 00_scope.md R8. R8 gives the last three the types "duration" and "frequency" only; that they are
whole microseconds and whole hertz is the model's choice (DESIGN CHOICE, unsafe: log 17). -/
structure Params where
  /-- `P_DEV_ADDR`, the sensor's 7-bit bus address -/
  devAddr : BitVec 7
  /-- `P_BRG`, the clock divisor -/
  brg : BitVec 7
  /-- `P_ATIME_LONGEST`, the value for "longest integration time" -/
  atimeLongest : Byte
  /-- `P_GAIN_UNITY`, the value for "unity gain" -/
  gainUnity : Byte
  /-- `P_D_STEP`, in whole microseconds (log 17) -/
  dStep : Nat
  /-- `P_D_POWER`, in whole microseconds (log 17) -/
  dPower : Nat
  /-- `P_FOSC`, in whole hertz (log 17) -/
  fosc : Nat
  deriving DecidableEq, Repr

namespace Config

/-- `P_DEV_ADDR` (R8: OPEN). -/
opaque pDevAddr : BitVec 7
/-- `P_BRG` (R8: OPEN). -/
opaque pBrg : BitVec 7
/-- `P_ATIME_LONGEST` (R8: OPEN). -/
opaque pAtimeLongest : Byte
/-- `P_GAIN_UNITY` (R8: OPEN). -/
opaque pGainUnity : Byte
/-- `P_D_STEP` (R8: OPEN; its unit: log 17). -/
opaque pDStep : Nat
/-- `P_D_POWER` (R8: OPEN; its unit: log 17). -/
opaque pDPower : Nat
/-- `P_FOSC` (R8: OPEN; its unit: log 17). -/
opaque pFosc : Nat

/-- The parameters of the machine that `State.reset` describes. -/
def params : Params :=
  { devAddr := pDevAddr, brg := pBrg, atimeLongest := pAtimeLongest, gainUnity := pGainUnity,
    dStep := pDStep, dPower := pDPower, fosc := pFosc }

/-- `draw_ack()` (R66): the acknowledge bit of the n-th transmitted byte, under no law. -/
opaque peerAck : Nat → Bit
/-- `draw_byte()` (R66): the n-th received byte, under no law. -/
opaque peerByte : Nat → Byte
/-- The n-th scheduling choice (R70), under no law. -/
opaque turn : Nat → Turn
/-- The byte on the bus when a transmission after n events runs with `BUF` unwritten (93 U14): unspecified, in no
reachable state. -/
opaque unwrittenBuf : Nat → Byte

end Config

end Sys2Proof
end

