-- ==== Sys2Proof/Machine/State.lean ====
section
/-! DEFINITION. The state of the block (10_state.md R20 to R38, 60_exceptions.md R181), the arguments of the step
relation that the one Lean step must find in it (R20, "Not state"), and the state after reset (R38, R210). -/

namespace Sys2Proof.Machine

/-- The four channels, in the order of `CH[0..3]` (R21). -/
inductive Channel
  | clear | red | green | blue
  deriving DecidableEq, Repr

/-- `CH[0..3]` with the names of DOC's aggregate (R21); `none` is the spec's `⊥` (R10, R22). -/
structure Channels where
  clear : Option Half
  red : Option Half
  green : Option Half
  blue : Option Half
  deriving DecidableEq, Repr

/-- The registers the host may read (R22). -/
inductive ResultReg
  | res
  | ch (c : Channel)
  deriving DecidableEq, Repr

/-- The micro-ops (R39). -/
inductive MicroOp
  | uInit
  | uStart
  | uRestart
  | uStop
  | uAck
  | uNack
  | uIdle
  | uSend (b : Byte)
  | uRead
  | uDelay (k : DelayKind)
  | uMovLo
  | uMovHi
  | uCompose
  | uStch (c : Channel)
  deriving DecidableEq, Repr

/-- What the sequencer is held on (R26, R42); `none` is `NONE`. -/
inductive WaitState
  | none
  | wSen
  | wRsen
  | wPen
  | wAcken
  | wBf0
  | wIdle
  | wBf1
  deriving DecidableEq, Repr

/-- The bus protocol phase (R30). -/
inductive Phase
  /-- bus released -/
  | idle
  /-- the next byte is an address byte -/
  | addr
  /-- write direction: data bytes may be sent -/
  | txw
  /-- read direction: a byte may be received -/
  | rxr
  /-- a byte has been received and not yet answered -/
  | rxb
  /-- NACK sent -/
  | rxend
  deriving DecidableEq, Repr

/-- The bus events of the trace `H` (20_memory.md R62). -/
inductive Event
  | start
  | restart
  | stop
  /-- the master sent `b`, the peer answered acknowledge bit `a` -/
  | tx (b : Byte) (a : Bit)
  /-- the master received `v` -/
  | rx (v : Byte)
  | mack
  | mnack
  | delay (k : DelayKind)
  deriving DecidableEq, Repr

/-- The fault codes (60_exceptions.md R182). -/
inductive FaultCode
  | illegalCommand
  | notInit
  | reinit
  | protocol
  | unwritten
  deriving DecidableEq, Repr

/-- What a fault record holds in place of `seq`: a micro-op index, or for a host read the register's name (R183). -/
inductive FaultSite
  | microOp (index : Nat)
  | register (r : ResultReg)
  deriving DecidableEq, Repr

/-- The record `(code, word, seq, phase)` of R181; `word` is `none` (`⊥`) for a host read. -/
structure FaultRecord where
  code : FaultCode
  word : Option Word
  site : FaultSite
  phase : Phase
  deriving DecidableEq, Repr

/-- A read of a result register that the host has yet to make: it makes it while the block is not busy, once `cp` has
reached `due` (R22; log 9). -/
structure HostRead where
  due : Nat
  reg : ResultReg
  deriving DecidableEq, Repr

/-- Answers of an agent outside the block: those already known, oldest first, and how many have been taken. An answer
after the script's end is a free value of Config (Ops.lean, `Supply.look`). -/
structure Supply (α : Type) where
  script : List α
  taken : Nat
  deriving DecidableEq, Repr

/-- The arguments of the step relation (R20: "Not state: the parameters …, the host program …, the peer oracle and the
fairness premise"). -/
structure Env where
  /-- the parameters of R8 -/
  params : Params
  /-- the host program, a list of command words (R24) -/
  program : List Word
  /-- the reads the host will make, in order -/
  reads : List HostRead
  /-- the values delivered to the host, oldest first: the model's own field (log 9) -/
  delivered : List (ResultReg × Half)
  /-- the scheduling choices (R70) -/
  turns : Supply Turn
  /-- the peer's acknowledge bits (R66) -/
  acks : Supply Bit
  /-- the peer's bytes (R66) -/
  bytes : Supply Byte
  deriving DecidableEq, Repr

end Sys2Proof.Machine

namespace Sys2Proof.Machine

/-- The state of the model. A 1-bit flag is a `Bool` (`true` is 1); an `Option` register is the spec's register that may
hold `⊥` (R10, R22, R38). -/
structure State where
  /-- `RES` (R21) -/
  res : Option Half
  /-- `CH[0..3]` (R21) -/
  ch : Channels
  /-- `RB`, the byte just received (R21) -/
  rb : Option Byte
  /-- `LO` (R21) -/
  lo : Option Byte
  /-- `HI` (R21) -/
  hi : Option Byte
  /-- `BUF`, the data buffer (R21) -/
  buf : Option Byte
  /-- the host command pointer (R24) -/
  cp : Nat
  /-- a command is executing (R26) -/
  busy : Bool
  /-- the command being executed (R26) -/
  cur : Option Word
  /-- the command's micro-program (R26) -/
  mp : List MicroOp
  /-- the index of the next micro-op to issue (R26) -/
  seq : Nat
  /-- what the sequencer is held on (R26) -/
  wst : WaitState
  /-- arms a start (R27) -/
  sen : Bool
  /-- arms a repeated start (R27) -/
  rsen : Bool
  /-- arms a stop (R27) -/
  pen : Bool
  /-- arms a one-byte receive (R27) -/
  rcen : Bool
  /-- arms an acknowledge sequence (R27) -/
  acken : Bool
  /-- buffer full (R28) -/
  bf : Bool
  /-- transmit in progress (R28) -/
  tip : Bool
  /-- write collision (R28) -/
  wcol : Bool
  /-- the peer's last acknowledge bit (R28) -/
  ackstat : Bit
  /-- the acknowledge bit to send (R29) -/
  ackdt : Bit
  /-- the bus protocol phase (R30) -/
  phase : Phase
  /-- peripheral enabled (R31) -/
  en : Bool
  /-- peripheral mode (R31) -/
  mode : BitVec 4
  /-- slew-rate control disabled (R31) -/
  smp : Bool
  /-- clock divisor (R31) -/
  brg : BitVec 7
  /-- clock line released to the peripheral (R31) -/
  sclDir : Bool
  /-- data line released to the peripheral (R31) -/
  sdaDir : Bool
  /-- `uINIT` has completed (R32) -/
  init : Bool
  /-- the fault state (R181) -/
  fault : Option FaultRecord
  /-- the bus event trace `H`, oldest event first (R62) -/
  trace : List Event
  /-- the arguments of the step relation -/
  env : Env
  deriving DecidableEq, Repr

/-- Why the machine stops. -/
inductive Fault
  /-- Raised by `step` alone, in a state whose fault state is set: "neither the host nor the sequencer has a step"
  (R181). Safe: nothing is claimed of a faulted run beyond its stop. -/
  | faulted (r : FaultRecord)
  deriving DecidableEq, Repr

/-- Why an instruction has no meaning. -/
inductive Refusal
  /-- Raised by an arm of `exec` whose instruction has no meaning yet; no arm is one. Safe. -/
  | notModelled (mnemonic : String)
  deriving DecidableEq, Repr

/-- The arguments at reset: the OPEN parameters, and an outside world of which nothing is known (log 4, log 5). -/
def Env.reset : Env :=
  { params := Config.params, program := [], reads := [], delivered := [],
    turns := ⟨[], 0⟩, acks := ⟨[], 0⟩, bytes := ⟨[], 0⟩ }

/-- The state after reset (R38, R210). -/
def State.reset : State :=
  { res := none, ch := ⟨none, none, none, none⟩, rb := none, lo := none, hi := none, buf := none,
    cp := 0, busy := false, cur := none, mp := [], seq := 0, wst := .none,
    sen := false, rsen := false, pen := false, rcen := false, acken := false,
    bf := false, tip := false, wcol := false, ackstat := 0, ackdt := 0,
    phase := .idle, en := false, mode := 0, smp := false, brg := 0, sclDir := true, sdaDir := true,
    init := false, fault := none, trace := [], env := Env.reset }

end Sys2Proof.Machine
end

