-- ==== Sys2Proof/Machine/Operands.lean ====
section
/-! DEFINITION. The literals that the spec fixes (00_scope.md R8, R9) and the operand forms: wire bytes, register
addresses, 16-bit composition, and reads and writes of the channel registers (30_encoding.md R90 to R96, R99). -/

namespace Sys2Proof.Machine

/-! ### Literals, each in one place (R9) -/

/-- `CMD_BIT` (R8). -/
def cmdBit : Byte := 0x80
/-- `REG_ENABLE` (R75). -/
def regEnable : Byte := 0x00
/-- `REG_ATIME` (R75). -/
def regAtime : Byte := 0x01
/-- `REG_GAIN` (R75). -/
def regGain : Byte := 0x0F
/-- `REG_CDATA`, low byte (R75). -/
def regCdata : Byte := 0x14
/-- `REG_RDATA`, low byte (R75). -/
def regRdata : Byte := 0x16
/-- `REG_GDATA`, low byte (R75). -/
def regGdata : Byte := 0x18
/-- `REG_BDATA`, low byte (R75). -/
def regBdata : Byte := 0x1A
/-- `EN_OFF` (R95). -/
def enOff : Byte := 0x00
/-- `EN_PON` (R95). -/
def enPon : Byte := 0x01
/-- `EN_PON_AEN` (R95). -/
def enPonAen : Byte := 0x03
/-- `MODE_I2C_MASTER` (R31). -/
def modeI2cMaster : BitVec 4 := 0b1000
/-- The polarity of an acknowledge bit: 0 is ACK (R28, R29). -/
def bitAck : Bit := 0
/-- The polarity of an acknowledge bit: 1 is NACK (R28, R29). -/
def bitNack : Bit := 1

/-- A transfer direction (R90, R91). -/
inductive Direction
  | write | read
  deriving DecidableEq, Repr

/-- The direction bit: 0 is write, 1 is read (R90). -/
def Direction.bit : Direction → Bit
  | .write => 0
  | .read => 1

/-- The direction that an address byte selects: its bit 0 (R91). -/
def directionOf (b : Byte) : Direction :=
  if b.getLsbD 0 then .read else .write

/-- `ADDR(rw) = (P_DEV_ADDR << 1) | rw` (R90). -/
def addrByte (p : Params) (d : Direction) : Byte :=
  (p.devAddr.setWidth 8 <<< 1) ||| d.bit.setWidth 8

/-- `ADDR_W` (R90). -/
def addrW (p : Params) : Byte := addrByte p .write

/-- `ADDR_R` (R90). -/
def addrR (p : Params) : Byte := addrByte p .read

/-- `CMD(r) = CMD_BIT | r` (R92). -/
def cmdByte (r : Byte) : Byte := cmdBit ||| r

/-- The register address of the high byte, `(r + 1) mod 256` (R94). -/
def highReg (r : Byte) : Byte := r + 1

/-- `value16 = (HI << 8) | LO` (R94, R150). -/
def compose16 (hi lo : Byte) : Half := (hi.setWidth 16 <<< 8) ||| lo.setWidth 16

/-- `zext_16` (R10). -/
def zext16 (b : Byte) : Half := b.setWidth 16

/-- `uCOMPOSE` on registers that may hold `⊥` (R150): the result holds `⊥` unless both halves are written (log 7). -/
def composeRegs (hi lo : Option Byte) : Option Half :=
  match hi, lo with
  | some h, some l => some (compose16 h l)
  | _, _ => none

/-- The low byte's register address of a channel (R75, R154). -/
def channelReg : Channel → Byte
  | .clear => regCdata
  | .red => regRdata
  | .green => regGdata
  | .blue => regBdata

/-- Read `CH[c]`. -/
def Channels.get (chs : Channels) : Channel → Option Half
  | .clear => chs.clear
  | .red => chs.red
  | .green => chs.green
  | .blue => chs.blue

/-- Write `CH[c]`. -/
def Channels.set (chs : Channels) (v : Option Half) : Channel → Channels
  | .clear => { chs with clear := v }
  | .red => { chs with red := v }
  | .green => { chs with green := v }
  | .blue => { chs with blue := v }

/-- Read a result register (R22). -/
def State.result (s : State) : ResultReg → Option Half
  | .res => s.res
  | .ch c => s.ch.get c

end Sys2Proof.Machine
end

