-- ==== Sys2Proof/Machine/Flags.lean ====
section
/-! DEFINITION. Everything computed from the peripheral's flags: the derived `master` (10_state.md R33), the conditions
of the wait states (R42), the write-collision condition (40_transport.md R128) and the phase table (R120). -/

namespace Sys2Proof.Machine

/-- `master = (en = 1) ∧ (mode = MODE_I2C_MASTER)` (R33). -/
def State.master (s : State) : Bool := s.en && s.mode == modeI2cMaster

/-- A condition enable is set (R27). -/
def State.conditionArmed (s : State) : Bool := s.sen || s.rsen || s.pen || s.rcen || s.acken

/-- A write of `BUF` now collides (R128). -/
def State.collides (s : State) : Bool := s.conditionArmed || s.tip || s.bf

/-- The await-idle condition (R42, R127). -/
def State.idleCond (s : State) : Bool := !(s.conditionArmed || s.tip || s.wcol)

/-- `cond(wst)` (R42); `NONE` is no hold. -/
def State.cond (s : State) : WaitState → Bool
  | .none => true
  | .wSen => !s.sen
  | .wRsen => !s.rsen
  | .wPen => !s.pen
  | .wAcken => !s.acken
  | .wBf0 => !s.bf
  | .wIdle => s.idleCond
  | .wBf1 => s.bf

/-- The micro-ops that R120's checks are for: those of 40_transport.md. -/
def MicroOp.isTransport : MicroOp → Bool
  | .uInit | .uStart | .uRestart | .uStop | .uAck | .uNack | .uIdle | .uSend _ | .uRead => true
  | .uDelay _ | .uMovLo | .uMovHi | .uCompose | .uStch _ => false

/-- The column "accepted in" of R120. -/
def MicroOp.acceptedIn : MicroOp → Phase → Bool
  | .uInit, _ => true
  | .uStart, ph => ph == .idle
  | .uRestart, ph => ph == .txw || ph == .rxr || ph == .rxb || ph == .rxend
  | .uStop, ph => ph == .addr || ph == .txw || ph == .rxr || ph == .rxb || ph == .rxend
  | .uAck, ph => ph == .rxb
  | .uNack, ph => ph == .rxb
  | .uIdle, _ => true
  | .uSend _, ph => ph == .addr || ph == .txw
  | .uRead, ph => ph == .rxr
  | .uDelay _, _ | .uMovLo, _ | .uMovHi, _ | .uCompose, _ | .uStch _, _ => true

/-- The phase that an address byte leads to (R91, R120). -/
def phaseOfDirection : Direction → Phase
  | .write => .txw
  | .read => .rxr

/-- `nxt` of R128: the phase after a byte is sent. -/
def phaseAfterSend (b : Byte) (ph : Phase) : Phase :=
  if ph = .addr then phaseOfDirection (directionOf b) else .txw

/-- The column "phase after issue" of R120. -/
def MicroOp.phaseAfter : MicroOp → Phase → Phase
  | .uStart, _ => .addr
  | .uRestart, _ => .addr
  | .uStop, _ => .idle
  | .uAck, _ => .rxr
  | .uNack, _ => .rxend
  | .uSend b, ph => phaseAfterSend b ph
  | .uRead, _ => .rxb
  | .uInit, ph | .uIdle, ph | .uDelay _, ph | .uMovLo, ph | .uMovHi, ph | .uCompose, ph | .uStch _, ph => ph

/-- The checks at issue, in R120's order; `none` is "passed". -/
def MicroOp.check (op : MicroOp) (s : State) : Option FaultCode :=
  match op with
  | .uInit => if s.init then some .reinit else none
  | op =>
    if op.isTransport then
      if !s.init then some .notInit else if op.acceptedIn s.phase then none else some .protocol
    else none

end Sys2Proof.Machine
end

