-- ==== Sys2Proof/Machine/Ops.lean ====
section
/-! DEFINITION. The shared operations: `emit`, the draws, `raise Fault`, the command issue, its completion, and the
host's reads (00_scope.md R11; 10_state.md R22, R40, R41; 20_memory.md R66; 60_exceptions.md R181). -/

namespace Sys2Proof.Machine

/-- `emit(e)`: append to `H` (R11, R62). -/
def emit (e : Event) (s : State) : State := { s with trace := s.trace ++ [e] }

/-! ### Draws -/

/-- The answer `k` places ahead: the script's, or past its end the free value at its place in the whole sequence. -/
def Supply.look {α : Type} (free : Nat → α) (q : Supply α) (k : Nat) : α :=
  (q.script[k]?).getD (free (q.taken + k))

/-- Take `k` answers. -/
def Supply.take {α : Type} (q : Supply α) (k : Nat) : Supply α := ⟨q.script.drop k, q.taken + k⟩

/-- The acknowledge bit `k` draws ahead (R66). -/
def State.ackAhead (s : State) (k : Nat) : Bit := s.env.acks.look Config.peerAck k

/-- The received byte `k` draws ahead (R66). -/
def State.byteAhead (s : State) (k : Nat) : Byte := s.env.bytes.look Config.peerByte k

/-- The scheduling choice `k` draws ahead (R70). -/
def State.turnAhead (s : State) (k : Nat) : Turn := s.env.turns.look Config.turn k

/-- Take `k` acknowledge bits. -/
def takeAcks (k : Nat) (s : State) : State := { s with env := { s.env with acks := s.env.acks.take k } }

/-- Take `k` received bytes. -/
def takeBytes (k : Nat) (s : State) : State := { s with env := { s.env with bytes := s.env.bytes.take k } }

/-- Take `k` scheduling choices. -/
def takeTurns (k : Nat) (s : State) : State := { s with env := { s.env with turns := s.env.turns.take k } }

/-! ### Faults -/

/-- The numbers of the fault codes (R182). -/
def FaultCode.number : FaultCode → Nat
  | .illegalCommand => 1
  | .notInit => 2
  | .reinit => 3
  | .protocol => 4
  | .unwritten => 5

/-- `raise Fault(code, info)` (R181): set the fault state, and leave every other field as it was. This is all the entry
there is: no mode, mask, vector or handler (R188), and no return (R189). -/
def raiseFault (code : FaultCode) (word : Option Word) (site : FaultSite) (s : State) : State :=
  { s with fault := some ⟨code, word, site, s.phase⟩ }

/-- The host issue step's fault on a word that is no command (R40, R183). -/
def raiseIllegal (w : Word) (s : State) : State := raiseFault .illegalCommand (some w) (.microOp 0) s

/-! ### Commands -/

/-- The state change of the host issue step on a legal word (R40). -/
def beginCommand (w : Word) (mp : List MicroOp) (s : State) : State :=
  { s with cur := some w, mp := mp, seq := 0, wst := .none, busy := true }

/-- Command complete (R41). -/
def endCommand (s : State) : State := { s with busy := false, cp := s.cp + 1 }

/-! ### Host reads -/

/-- A host read of a result register (R22): a register that holds `⊥` raises `UNWRITTEN`, recording the register's name
in place of `seq` (R183); any other delivers its value and changes nothing of the block. -/
def hostRead (r : ResultReg) (s : State) : State :=
  match s.result r with
  | none => raiseFault .unwritten none (.register r) s
  | some v => { s with env := { s.env with reads := s.env.reads.tail, delivered := s.env.delivered ++ [(r, v)] } }

/-- The read that the host makes now, if one is due (R22). -/
def dueRead (s : State) : Option ResultReg :=
  match s.env.reads with
  | [] => none
  | q :: _ => if q.due ≤ s.cp then some q.reg else none

/-- `program[cp]` (R40); none when the host has no command left. -/
def fetchWord (s : State) : Option Word := s.env.program[s.cp]?

/-- A program with the word `w` at place `n`, and the places before it kept; places the program lacks hold the all-zero
word. -/
def placeWord (n : Nat) (w : Word) (program : List Word) : List Word :=
  program.take n ++ List.replicate (n - program.length) 0 ++ w :: program.drop (n + 1)

/-- The host's reads that are not yet due when `cp` is `n`, from the first of them on. -/
def notYetDue (n : Nat) (reads : List HostRead) : List HostRead := reads.dropWhile (fun q => q.due ≤ n)

end Sys2Proof.Machine
end

