-- ==== Sys2Proof/Machine/Engine.lean ====
section
/-! DEFINITION. The engine's steps (20_memory.md R61 to R70) and the peer's answers in them (R66). -/

namespace Sys2Proof.Machine

/-- The engine's steps, one for each of R63 to R69; a transmission takes two (R68). -/
inductive EngineAction
  | start
  | restart
  | stop
  | receive
  | shift
  | ackClock
  | ackSequence
  deriving DecidableEq, Repr

/-- When a step is enabled (R63 to R69). It never depends on the peer (R66). -/
def EngineAction.enabled (s : State) : EngineAction → Bool
  | .start => s.sen && s.master
  | .restart => s.rsen && s.master
  | .stop => s.pen && s.master
  | .receive => s.rcen && s.master
  | .shift => s.bf && s.tip && s.master
  | .ackClock => !s.bf && s.tip && s.master
  | .ackSequence => s.acken && s.master

/-- The start step (R63). -/
def engineStart (s : State) : State := { emit .start s with sen := false }

/-- The repeated-start step (R64). -/
def engineRestart (s : State) : State := { emit .restart s with rsen := false }

/-- The stop step (R65). -/
def engineStop (s : State) : State := { emit .stop s with pen := false }

/-- The receive step (R67). -/
def engineReceive (s : State) : State :=
  let v := s.byteAhead 0
  { emit (.rx v) (takeBytes 1 s) with buf := some v, bf := true, rcen := false }

/-- The shift step of a transmission (R68). -/
def engineShift (s : State) : State := { s with bf := false }

/-- The acknowledge step of a transmission (R68). An unwritten `BUF` is in no reachable state; the byte is then free
(log 7). -/
def engineAckClock (s : State) : State :=
  let a := s.ackAhead 0
  { emit (.tx (s.buf.getD (Config.unwrittenBuf s.trace.length)) a) (takeAcks 1 s) with ackstat := a, tip := false }

/-- The acknowledge-sequence step (R69). -/
def engineAckSequence (s : State) : State :=
  { emit (if s.ackdt = bitAck then .mack else .mnack) s with acken := false }

/-- What a step does. -/
def EngineAction.perform : EngineAction → State → State
  | .start, s => engineStart s
  | .restart, s => engineRestart s
  | .stop, s => engineStop s
  | .receive, s => engineReceive s
  | .shift, s => engineShift s
  | .ackClock, s => engineAckClock s
  | .ackSequence, s => engineAckSequence s

/-- The enabled step. At most one is enabled in a state that a run reaches (R70); in any other state the first of this
list is taken (log 8). -/
def engineAction (s : State) : Option EngineAction :=
  [.start, .restart, .stop, .receive, .shift, .ackClock, .ackSequence].find? (EngineAction.enabled s)

/-- The engine's step, if one is enabled (R61). -/
def engineStep (s : State) : Option State := (engineAction s).map (fun a => a.perform s)

end Sys2Proof.Machine
end

