-- ==== Sys2Proof/Machine/Expand.lean ====
section
/-! DEFINITION. `expand`: the micro-program of each command (10_state.md R40; 40_transport.md; 41_sensor_protocol.md R151
to R156). -/

namespace Sys2Proof.Machine

/-- `expand(WRITE_REG r, v)` (R151), which is `MemWrite(r, 1, v)` (R11). -/
def expandWriteReg (p : Params) (r v : Byte) : List MicroOp :=
  [.uStart, .uDelay .step,
   .uSend (addrW p), .uDelay .step,
   .uSend (cmdByte r), .uDelay .step,
   .uSend v, .uDelay .step,
   .uStop]

/-- `expand(READ_REG r)` (R152), which is `MemRead(r, 1)` (R11). -/
def expandReadReg (p : Params) (r : Byte) : List MicroOp :=
  [.uStart, .uDelay .step,
   .uSend (addrW p), .uDelay .step,
   .uSend (cmdByte r), .uDelay .step,
   .uRestart, .uDelay .step,
   .uSend (addrR p), .uDelay .step,
   .uRead,
   .uStop, .uDelay .settle]

/-- `expand(READ16 r)` (R153). -/
def expandRead16 (p : Params) (r : Byte) : List MicroOp :=
  expandReadReg p r ++ [.uMovLo] ++ expandReadReg p (highReg r) ++ [.uMovHi, .uCompose]

/-- The part of `expand(READ_CHANNELS)` for one channel (R154). -/
def expandChannel (p : Params) (c : Channel) : List MicroOp := expandRead16 p (channelReg c) ++ [.uStch c]

/-- `expand(READ_CHANNELS)` (R154). -/
def expandReadChannels (p : Params) : List MicroOp :=
  expandChannel p .clear ++ expandChannel p .red ++ expandChannel p .green ++ expandChannel p .blue

/-- `expand(ENABLE)` (R155). -/
def expandEnable (p : Params) : List MicroOp :=
  expandWriteReg p regEnable enPon ++ [.uDelay .power] ++ expandWriteReg p regEnable enPonAen ++
    expandWriteReg p regAtime p.atimeLongest ++ expandWriteReg p regGain p.gainUnity

/-- `expand(DISABLE)` (R156). -/
def expandDisable (p : Params) : List MicroOp := expandWriteReg p regEnable enOff

/-- `expand(w)` of R40 for the command that `w` encodes. A transport command expands to exactly one micro-op
(40_transport.md). -/
def expand (p : Params) : Instr → List MicroOp
  | .init => [.uInit]
  | .start => [.uStart]
  | .restart => [.uRestart]
  | .stop => [.uStop]
  | .ack => [.uAck]
  | .nack => [.uNack]
  | .idle => [.uIdle]
  | .send b => [.uSend b]
  | .read => [.uRead]
  | .writeReg r v => expandWriteReg p r v
  | .readReg r => expandReadReg p r
  | .read16 r => expandRead16 p r
  | .readChannels => expandReadChannels p
  | .enable => expandEnable p
  | .disable => expandDisable p

end Sys2Proof.Machine
end

