-- ==== Sys2Proof/Machine/Micro.lean ====
section
/-! DEFINITION. The issue of each micro-op (40_transport.md R120 to R129, 41_sensor_protocol.md R150). -/

namespace Sys2Proof.Machine

/-- `uINIT` (R121). -/
def issueInit (s : State) : State :=
  { s with sclDir := true, sdaDir := true, smp := true, mode := modeI2cMaster, en := true, brg := s.env.params.brg,
           sen := false, rsen := false, pen := false, rcen := false, acken := false, ackdt := 0, wcol := false,
           init := true }

/-- `uSTART` (R122). -/
def issueStart (s : State) : State := { s with sen := true, phase := .addr, wst := .wSen }

/-- `uRESTART` (R123). -/
def issueRestart (s : State) : State := { s with rsen := true, phase := .addr, wst := .wRsen }

/-- `uSTOP` (R124). -/
def issueStop (s : State) : State := { s with pen := true, phase := .idle, wst := .wPen }

/-- `uACK` (R125). -/
def issueAck (s : State) : State := { s with ackdt := bitAck, acken := true, phase := .rxr, wst := .wAcken }

/-- `uNACK` (R126). -/
def issueNack (s : State) : State := { s with ackdt := bitNack, acken := true, phase := .rxend, wst := .wAcken }

/-- `uIDLE` (R127). -/
def issueIdle (s : State) : State := { s with wst := .wIdle }

/-- The write of `BUF` (R28, R128): on a collision only `wcol` is set; otherwise the byte is taken and transmission
armed. -/
def writeBuf (b : Byte) (s : State) : State :=
  if s.collides then { s with wcol := true } else { s with buf := some b, bf := true, tip := true }

/-- `uSEND(b)` (R128). -/
def issueSend (b : Byte) (s : State) : State :=
  { writeBuf b s with phase := phaseAfterSend b s.phase, wst := .wBf0 }

/-- `uREAD` (R129): outside master mode nothing is armed. -/
def issueRead (s : State) : State := { s with rcen := s.rcen || s.master, phase := .rxb, wst := .wBf1 }

/-- `uDELAY(k)` (R150). -/
def issueDelay (k : DelayKind) (s : State) : State := emit (.delay k) s

/-- `uMOVLO` (R150). -/
def issueMovLo (s : State) : State := { s with lo := s.rb }

/-- `uMOVHI` (R150). -/
def issueMovHi (s : State) : State := { s with hi := s.rb }

/-- `uCOMPOSE` (R150). -/
def issueCompose (s : State) : State := { s with res := composeRegs s.hi s.lo }

/-- `uSTCH(c)` (R150). -/
def issueStch (c : Channel) (s : State) : State := { s with ch := s.ch.set s.res c }

/-- The effect of a micro-op whose checks have passed. -/
def MicroOp.effect : MicroOp → State → State
  | .uInit, s => issueInit s
  | .uStart, s => issueStart s
  | .uRestart, s => issueRestart s
  | .uStop, s => issueStop s
  | .uAck, s => issueAck s
  | .uNack, s => issueNack s
  | .uIdle, s => issueIdle s
  | .uSend b, s => issueSend b s
  | .uRead, s => issueRead s
  | .uDelay k, s => issueDelay k s
  | .uMovLo, s => issueMovLo s
  | .uMovHi, s => issueMovHi s
  | .uCompose, s => issueCompose s
  | .uStch c, s => issueStch c s

/-- `issue(op)` of R41 for the micro-op at `index`: the checks of R120 come first, and a micro-op that fails one has no
effect but the fault (R120, R181). -/
def issue (op : MicroOp) (index : Nat) (s : State) : State :=
  match op.check s with
  | some code => raiseFault code s.cur (.microOp index) s
  | none => op.effect s

end Sys2Proof.Machine
end

