-- ==== Sys2Proof/Machine/Sequencer.lean ====
section
/-! DEFINITION. The sequencer step (10_state.md R41, R42). -/

namespace Sys2Proof.Machine

/-- `post(wst)` (R42). The read of `BUF` in `W_BF1` clears `bf`. -/
def post : WaitState → State → State
  | .wBf0, s => { s with wst := .wIdle }
  | .wBf1, s => { s with rb := s.buf, bf := false, res := s.buf.map zext16, wst := .none }
  | .none, s | .wSen, s | .wRsen, s | .wPen, s | .wAcken, s | .wIdle, s => { s with wst := .none }

/-- The sequencer's step (R41); `none` where it has none: while it is held, when the block is not busy, and in a faulted
state. -/
def sequencerStep (s : State) : Option State :=
  if !s.busy || s.fault.isSome then none
  else if s.wst ≠ .none then
    if s.cond s.wst then some (post s.wst s) else none
  else
    match s.mp[s.seq]? with
    | some op => some (issue op s.seq { s with seq := s.seq + 1 })
    | none => some (endCommand s)

end Sys2Proof.Machine
end

