-- ==== Sys2Proof/Machine/Block.lean ====
section
/-! DEFINITION. The sequencer and the engine together: one turn of either, the run of the block up to the point where
neither goes on, and the issue of a command (10_state.md R40, R41; 20_memory.md R70; log 1, log 2). -/

namespace Sys2Proof.Machine

/-- What a turn leads to. -/
inductive TurnResult
  /-- an agent took a step -/
  | went (s : State)
  /-- no agent took one: the command is over, a fault is recorded, or the sequencer is held and the engine did not act -/
  | rested (s : State)
  deriving DecidableEq, Repr

/-- The turn in which the engine has the step `a` to take: the scheduling choice says who acts (R70). -/
def contestedTurn (a : EngineAction) (s : State) : TurnResult :=
  let s' := takeTurns 1 s
  match s.turnAhead 0 with
  | .pause => .rested s'
  | .engineFirst => .went (a.perform s')
  | .sequencerFirst =>
    match sequencerStep s' with
    | some t => .went t
    | none => .went (a.perform s')

/-- One turn of the busy block. -/
def blockTurn (s : State) : TurnResult :=
  if !s.busy || s.fault.isSome then .rested s
  else
    match engineAction s with
    | some a => contestedTurn a s
    | none =>
      match sequencerStep s with
      | some t => .went t
      | none => .rested s

/-- Turns until the block rests, at most `fuel` of them. -/
def runTurns : Nat → State → State
  | 0, s => s
  | fuel + 1, s =>
    match blockTurn s with
    | .went t => runTurns fuel t
    | .rested t => t

/-- More turns than any run of the micro-program can take (Laws/Block.lean, `runBlock_eq`): at most five for each
micro-op, and those already begun. -/
def turnBound (s : State) : Nat := 5 * s.mp.length + 12

/-- The run of the block until it rests. A hang (R186) is a block that rests busy step after step, without end. -/
def runBlock (s : State) : State := runTurns (turnBound s) s

/-- The host issues the command `i` (R40), and the block runs its micro-program (R41). -/
def issueCommand (i : Instr) (s : State) : Host.Outcome State Fault Refusal :=
  .next (runBlock (beginCommand (encode i) (expand s.env.params i) s))

end Sys2Proof.Machine
end

