-- ==== Sys2Proof/Machine/Sensor.lean ====
section
/-! DEFINITION. The meanings of the sensor commands (41_sensor_protocol.md R151 to R156): each issues its command, whose
micro-program is in Expand.lean. -/

namespace Sys2Proof.Machine

/-- `WRITE_REG r, v` (R151). -/
def execWriteReg (r v : Byte) (s : State) : Host.Outcome State Fault Refusal :=
  issueCommand (.writeReg r v) s

/-- `READ_REG r` (R152). -/
def execReadReg (r : Byte) (s : State) : Host.Outcome State Fault Refusal :=
  issueCommand (.readReg r) s

/-- `READ16 r` (R153). -/
def execRead16 (r : Byte) (s : State) : Host.Outcome State Fault Refusal :=
  issueCommand (.read16 r) s

/-- `READ_CHANNELS` (R154). -/
def execReadChannels (s : State) : Host.Outcome State Fault Refusal :=
  issueCommand .readChannels s

/-- `ENABLE` (R155). -/
def execEnable (s : State) : Host.Outcome State Fault Refusal :=
  issueCommand .enable s

/-- `DISABLE` (R156). -/
def execDisable (s : State) : Host.Outcome State Fault Refusal :=
  issueCommand .disable s

end Sys2Proof.Machine
end

