-- ==== Sys2Proof/Machine/Transport.lean ====
section
/-! DEFINITION. The meanings of the transport commands: each expands to a micro-program of exactly one micro-op
(40_transport.md R121 to R129), whose issue is in Micro.lean. -/

namespace Sys2Proof.Machine

/-- `INIT` (R121). -/
def execInit (s : State) : Host.Outcome State Fault Refusal := issueCommand .init s

/-- `START` (R122). -/
def execStart (s : State) : Host.Outcome State Fault Refusal := issueCommand .start s

/-- `RESTART` (R123). -/
def execRestart (s : State) : Host.Outcome State Fault Refusal := issueCommand .restart s

/-- `STOP` (R124). -/
def execStop (s : State) : Host.Outcome State Fault Refusal := issueCommand .stop s

/-- `ACK` (R125). -/
def execAck (s : State) : Host.Outcome State Fault Refusal := issueCommand .ack s

/-- `NACK` (R126). -/
def execNack (s : State) : Host.Outcome State Fault Refusal := issueCommand .nack s

/-- `IDLE` (R127). -/
def execIdle (s : State) : Host.Outcome State Fault Refusal := issueCommand .idle s

/-- `SEND b` (R128). -/
def execSend (b : Byte) (s : State) : Host.Outcome State Fault Refusal := issueCommand (.send b) s

/-- `READ` (R129). -/
def execRead (s : State) : Host.Outcome State Fault Refusal := issueCommand .read s

end Sys2Proof.Machine
end

