-- ==== Sys2Proof/Machine/Dispatch.lean ====
section
/-! DEFINITION. The dispatch: one arm for each command of the opcode map (30_encoding.md R98). -/

namespace Sys2Proof.Machine

/-- The meaning of a command that the host issues in the state `s` (10_state.md R40, R41). -/
def exec (i : Instr) (s : State) : Host.Outcome State Fault Refusal :=
  match i with
  | .init => Sys2Proof.Machine.execInit s
  | .start => Sys2Proof.Machine.execStart s
  | .restart => Sys2Proof.Machine.execRestart s
  | .stop => Sys2Proof.Machine.execStop s
  | .ack => Sys2Proof.Machine.execAck s
  | .nack => Sys2Proof.Machine.execNack s
  | .idle => Sys2Proof.Machine.execIdle s
  | .send b => Sys2Proof.Machine.execSend b s
  | .read => Sys2Proof.Machine.execRead s
  | .writeReg r v => Sys2Proof.Machine.execWriteReg r v s
  | .readReg r => Sys2Proof.Machine.execReadReg r s
  | .read16 r => Sys2Proof.Machine.execRead16 r s
  | .readChannels => Sys2Proof.Machine.execReadChannels s
  | .enable => Sys2Proof.Machine.execEnable s
  | .disable => Sys2Proof.Machine.execDisable s

end Sys2Proof.Machine
end

