-- ==== Sys2Proof/Machine/Step.lean ====
section
/-! DEFINITION. One step of the machine: the host's (10_state.md R22, R40) while the block is not busy, and the block's
(R41; 20_memory.md R61) while it is. -/

namespace Sys2Proof.Machine

/-- A faulted state has no step (60_exceptions.md R181). A busy block runs on. Otherwise the host makes a read that is
due, or issues `program[cp]`; with no command left it waits, and the state stays (70_reset_and_hazards.md R211, R217; log 3, log 9). -/
def step (s : State) : Host.Outcome State Fault Refusal :=
  match s.fault with
  | some r => .fault (.faulted r)
  | none =>
    if s.busy then .next (runBlock s)
    else
      match dueRead s with
      | some r => .next (hostRead r s)
      | none =>
        match fetchWord s with
        | none => .next s
        | some w =>
          match decode w with
          | .command i => exec i s
          | .illegal _ => .next (raiseIllegal w s)

/-- The state `s` with the word `w` of `nbits` bits where the next step fetches: at place `cp` of the host program, with
the block not busy, no fault recorded and no host read due, since the host issues a command only then (R40). -/
def State.withFetchWord (s : State) (nbits w : Nat) : State :=
  { s with
    busy := false
    fault := none
    env := { s.env with
      program := placeWord s.cp (BitVec.ofNat 24 (w % 2 ^ nbits)) s.env.program
      reads := notYetDue s.cp s.env.reads } }

end Sys2Proof.Machine
end

