-- ==== Sys2Proof/Machine/Timing.lean ====
section
/-! DEFINITION. The timing figures (70_reset_and_hazards.md R221), which are informative: no step depends on them (R222). -/

namespace Sys2Proof.Machine

/-- `P_FSCL`, in hertz (00_scope.md R8). -/
def fsclHertz : Nat := 100000

/-- `P_D_SETTLE`, in microseconds: 100 ms (R8). -/
def settleMicros : Nat := 100000

/-- How long a settling delay lasts (41_sensor_protocol.md R150), in whole microseconds, the model's unit (log 17). -/
def delayMicros (p : Params) : DelayKind → Nat
  | .step => p.dStep
  | .settle => settleMicros
  | .power => p.dPower

/-- One byte with its acknowledge bit: nine clock periods, in microseconds (R221). -/
def byteMicros : Nat := 9 * 1000000 / fsclHertz

/-- The time an event's settling delay takes. -/
def Event.delayMicros (p : Params) : Event → Nat
  | .delay k => Machine.delayMicros p k
  | .start | .restart | .stop | .tx _ _ | .rx _ | .mack | .mnack => 0

/-- The settling delays of a trace together: a lower bound of the time it takes (R221). -/
def traceDelayMicros (p : Params) (es : List Event) : Nat := (es.map (Event.delayMicros p)).sum

end Sys2Proof.Machine
end

