-- ==== Sys2Proof/Machine/Mssp.lean ====
section
/-! DEFINITION. The informative mapping of the fields to the PIC18F4620's registers (10_state.md R37): views of the state
that nothing else of the model reads. The whole table is marked general knowledge by the spec (93 G1; log 11). -/

namespace Sys2Proof.Machine

/-- The registers of R37's table that carry a field. -/
inductive Sfr
  | sspcon1 | sspcon2 | sspstat | sspadd | sspbuf | trisc
  deriving DecidableEq, Repr

/-- The register's address (R37). -/
def Sfr.address : Sfr → BitVec 12
  | .sspcon1 => 0xFC6
  | .sspcon2 => 0xFC5
  | .sspstat => 0xFC7
  | .sspadd => 0xFC8
  | .sspbuf => 0xFC9
  | .trisc => 0xF94

/-- The value `v` with the bit `i` set where `b` is. -/
def orBit (v : Byte) (i : Nat) (b : Bool) : Byte := if b then v ||| (1#8 <<< i) else v

/-- What the register holds; bits that carry no field keep their power-on values, and `SSPBUF` is unknown (`none`) until
it is written (R37). -/
def Sfr.value (s : State) : Sfr → Option Byte
  | .sspcon1 => some (orBit (orBit (s.mode.setWidth 8) 7 s.wcol) 5 s.en)
  | .sspcon2 =>
    some (orBit (orBit (orBit (orBit (orBit ((s.ackstat.setWidth 8 <<< 6) ||| (s.ackdt.setWidth 8 <<< 5))
      4 s.acken) 3 s.rcen) 2 s.pen) 1 s.rsen) 0 s.sen)
  | .sspstat => some (orBit (orBit (orBit 0 7 s.smp) 2 s.tip) 0 s.bf)
  | .sspadd => some (s.brg.setWidth 8)
  | .sspbuf => s.buf
  | .trisc => some (orBit (orBit 0xE7 3 s.sclDir) 4 s.sdaDir)

/-- The divisor that yields `P_FSCL` from `P_FOSC` by the formula that R8 marks general knowledge (93 G6; log 11): `P_BRG`
itself is OPEN, and no rule says that it is this. DESIGN CHOICE, unsafe: the spec is silent where the quotient is not whole
or is below 1; the model rounds it down and stops the subtraction at 0 (log 16). -/
def nominalBrg (p : Params) : Nat := p.fosc / (4 * fsclHertz) - 1

end Sys2Proof.Machine
end

