-- ==== Sys2Proof/Machine/ReferencePeer.lean ====
section
/-! DEFINITION. The reference peer (20_memory.md R72), a test fixture: it is not part of the step relation, whose peer is
an oracle (R66; log 12). It reads a trace and says whether the peer's answers in it are its own. -/

namespace Sys2Proof.Machine

/-- What the next byte sent to the reference peer is. -/
inductive PeerExpects
  /-- no transaction is open -/
  | nothing
  /-- an address byte -/
  | address
  /-- the first byte of a write phase -/
  | pointer
  /-- a later byte of a write phase -/
  | data
  /-- nothing more: a read phase -/
  | reading
  deriving DecidableEq, Repr

/-- The fixture's array `S[0..127]` and register pointer `p` (R72). -/
structure RefPeer where
  regs : Vector Byte 128
  ptr : BitVec 7
  expects : PeerExpects
  deriving DecidableEq, Repr

/-- `S[i]`. -/
def RefPeer.reg (q : RefPeer) (i : BitVec 7) : Byte := q.regs[i.toNat]'i.isLt

/-- `S[i] <- v`. -/
def RefPeer.setReg (q : RefPeer) (i : BitVec 7) (v : Byte) : RefPeer := { q with regs := q.regs.set i.toNat v i.isLt }

/-- What a byte sent does to the fixture (R72). -/
def RefPeer.take (q : RefPeer) (b : Byte) : RefPeer :=
  match q.expects with
  | .address => { q with expects := if b.getLsbD 0 then .reading else .pointer }
  | .pointer => { q with ptr := b.setWidth 7, expects := .data }
  | .data => q.setReg q.ptr b
  | .nothing => q
  | .reading => q

/-- What an event does to the fixture. -/
def RefPeer.observe (q : RefPeer) : Event → RefPeer
  | .start | .restart => { q with expects := .address }
  | .stop => { q with expects := .nothing }
  | .tx b _ => q.take b
  | .rx _ | .mack | .mnack | .delay _ => q

/-- The answer in an event is the fixture's: it always acknowledges, and a received byte is `S[p]` (R72). -/
def RefPeer.answers (q : RefPeer) : Event → Bool
  | .tx _ a => a == 0
  | .rx v => v == q.reg q.ptr
  | .start | .restart | .stop | .mack | .mnack | .delay _ => true

/-- Every answer in the events is the fixture's. -/
def RefPeer.answersAll (q : RefPeer) : List Event → Bool
  | [] => true
  | e :: es => q.answers e && (q.observe e).answersAll es

/-- The fixture after the events. -/
def RefPeer.after (q : RefPeer) (es : List Event) : RefPeer := es.foldl RefPeer.observe q

end Sys2Proof.Machine
end

