-- ==== Sys2Proof/Safety.lean ====
section
/-! DEFINITION. What claims are stated in: the ends of a run (70_reset_and_hazards.md R217), the fairness premise
`BUS_HEALTHY` (20_memory.md R70), the invariant of the states a run reaches (10_state.md R43 and what it rests on), and a
schedule without pauses. -/

namespace Sys2Proof.Machine

/-! ### Runs -/

/-- The state one step later; a state with no step stays. -/
def advance (s : State) : State :=
  match step s with
  | .next t => t
  | .fault _ => s
  | .refused _ => s

/-- The state `n` steps later. -/
def trajectory (s : State) : Nat → State
  | 0 => s
  | n + 1 => advance (trajectory s n)

/-- The step runs a command: one that is executing, or one that the host issues in it (R40). -/
def RunsCommand (s : State) : Prop :=
  s.busy = true ∨ ∃ w i, dueRead s = none ∧ fetchWord s = some w ∧ decode w = .command i

/-- The host has no command left and the block is not busy (R217, 1 and 2). -/
def RunOver (s : State) : Prop := s.cp = s.env.program.length ∧ s.busy = false ∧ s.fault = none

/-- A clean end (R217, 1). -/
def CleanEnd (s : State) : Prop := RunOver s ∧ s.phase = .idle

/-- An open end (R217, 2). -/
def OpenEnd (s : State) : Prop := RunOver s ∧ s.phase ≠ .idle

/-- A faulted end (R217, 3). -/
def FaultedEnd (s : State) : Prop := s.fault ≠ none

/-- A run that hangs (R186, R217, 4): from some step on the block is busy and unfaulted for ever. -/
def Hangs (s : State) : Prop := ∃ n, ∀ m, n ≤ m → (trajectory s m).busy = true ∧ (trajectory s m).fault = none

/-- What every step that some agent takes in a command changes. -/
def progressMark (s : State) : Nat × Nat × WaitState × Nat × Bool := (s.cp, s.seq, s.wst, s.trace.length, s.bf)

/-- `BUS_HEALTHY` (R70), weak fairness on the run from `s`: an engine step that is enabled does not stay so with nothing
happening for ever. -/
def BusHealthy (s : State) : Prop :=
  ∀ n, engineAction (trajectory s n) ≠ none →
    ∃ m, n < m ∧ progressMark (trajectory s m) ≠ progressMark (trajectory s n)

/-- None of the next `n` scheduling choices is a pause: the engine takes each step as soon as it is enabled, for as long
as `n` choices reach. -/
def Prompt (n : Nat) (s : State) : Prop := ∀ k, k < n → s.turnAhead k ≠ .pause

/-- The most scheduling choices that a whole command takes: one for each condition, receive or acknowledge sequence, and at
most three for each byte sent. -/
def turnsEnough : Instr → Nat
  | .init | .idle => 0
  | .start | .restart | .stop | .ack | .nack | .read => 1
  | .send _ => 3
  | .writeReg _ _ | .disable => 11
  | .readReg _ => 13
  | .read16 _ => 26
  | .readChannels => 104
  | .enable => 44

/-- The sensor commands (41_sensor_protocol.md). -/
def isSensor : Instr → Bool
  | .writeReg _ _ | .readReg _ | .read16 _ | .readChannels | .enable | .disable => true
  | .init | .start | .restart | .stop | .ack | .nack | .idle | .send _ | .read => false

/-! ### The invariant -/

/-- Nothing is armed, in transfer or collided (R43). -/
def Quiescent (s : State) : Prop :=
  s.sen = false ∧ s.rsen = false ∧ s.pen = false ∧ s.rcen = false ∧ s.acken = false ∧
    s.tip = false ∧ s.bf = false ∧ s.wcol = false

/-- The flags are those that what the sequencer is held on allows: each hold waits on the one action that was armed for
it (R42, R70). -/
def FlagsMatchHold (s : State) : Prop :=
  match s.wst with
  | .none => Quiescent s
  | .wSen => Quiescent { s with sen := false }
  | .wRsen => Quiescent { s with rsen := false }
  | .wPen => Quiescent { s with pen := false }
  | .wAcken => Quiescent { s with acken := false }
  | .wBf0 => Quiescent { s with bf := false, tip := false } ∧ (s.bf = true → s.tip = true)
  | .wIdle => Quiescent { s with tip := false }
  | .wBf1 => Quiescent { s with rcen := false, bf := false } ∧ s.rcen = !s.bf

/-- The control fields are as `uINIT` leaves them once it has run, and at their reset values before (R31, R32). -/
def Configured (s : State) : Prop :=
  s.sclDir = true ∧ s.sdaDir = true ∧
    if s.init = true then s.en = true ∧ s.mode = modeI2cMaster ∧ s.smp = true ∧ s.brg = s.env.params.brg
    else s.en = false ∧ s.mode = 0 ∧ s.smp = false ∧ s.brg = 0

/-- The phase after a list of micro-ops, if each is accepted in its turn and none is `uINIT` (R120). -/
def phaseWalk : List MicroOp → Phase → Option Phase
  | [], ph => some ph
  | op :: ops, ph => if op ≠ .uInit ∧ op.acceptedIn ph = true then phaseWalk ops (op.phaseAfter ph) else none

/-- What every state that a run reaches satisfies. -/
structure BlockInv (s : State) : Prop where
  /-- the flags match the hold (R42, R43) -/
  flags : FlagsMatchHold s
  /-- the control fields (R31, R33) -/
  configured : Configured s
  /-- a held sequencer has passed a check of `init` (R120) -/
  heldInit : s.wst ≠ .none → s.init = true
  /-- the sequencer is held only inside a command (R26) -/
  heldBusy : s.wst ≠ .none → s.busy = true ∧ 0 < s.seq
  /-- a fault arises where nothing is held (R181) -/
  faultUnheld : s.fault ≠ none → s.wst = .none
  /-- a byte in transmission stands in `BUF` (R128) -/
  sending : s.tip = true → s.buf ≠ none
  /-- `cp` indexes the command being executed, or the next (R24) -/
  pointer : s.cp ≤ s.env.program.length ∧ (s.busy = true → s.cp < s.env.program.length)
  /-- `seq` indexes the micro-program (R26) -/
  index : s.seq ≤ s.mp.length
  /-- a busy block runs the micro-program of the command in `cur` (R40); once its first micro-op has issued the rest is
  accepted (R183), and a sensor command's rest ends with the bus idle (R158) -/
  running : s.busy = true → ∃ i, s.cur = some (encode i) ∧ s.mp = expand s.env.params i ∧
    (s.fault = none → 0 < s.seq → s.init = true ∧ ∃ ph, phaseWalk (s.mp.drop s.seq) s.phase = some ph ∧
      (isSensor i = true → ph = .idle))
  /-- a fault is at a command's first micro-op, or at a host read (R183) -/
  site : ∀ r, s.fault = some r → r.site = .microOp 0 ∨ ∃ q, r.site = .register q

/-- The host can issue: an invariant state, not busy and not faulted (R40). -/
structure Ready (s : State) : Prop where
  inv : BlockInv s
  busy : s.busy = false
  fault : s.fault = none

/-- The state after the sequencer's part of a whole command `i` of `n` micro-ops (R40, R41): every other effect of the
command is on other fields. -/
def commandDone (i : Instr) (n : Nat) (s : State) : State :=
  { s with cur := some (encode i), mp := expand s.env.params i, seq := n, wst := .none, busy := false, cp := s.cp + 1 }

/-- The state after a command `i` that faults at its first micro-op (R181, R183): the record, and the sequencer's fields as
the issue left them. -/
def commandFaulted (i : Instr) (code : FaultCode) (s : State) : State :=
  { s with
    cur := some (encode i)
    mp := expand s.env.params i
    seq := 1
    wst := .none
    busy := true
    fault := some ⟨code, some (encode i), .microOp 0, s.phase⟩ }

end Sys2Proof.Machine
end

