-- ==== Sys2Proof/Certificates/Slice0/Obligations.lean ====
section
/-! DEFINITION. The statements for the provers. Each docstring names the rule that it formalises, or says what the
statement rests on. -/

open Sys2Proof Sys2Proof.Machine

namespace Sys2Proof.Machine

/-! ### What the statements are written in -/

/-- `ADDR_W` as the bits of R90: the 7-bit address in bits 7:1, direction bit 0. -/
def wireAddrW (s : State) : Byte := s.env.params.devAddr ++ (0#1)

/-- `ADDR_R` as the bits of R90: the 7-bit address in bits 7:1, direction bit 1. -/
def wireAddrR (s : State) : Byte := s.env.params.devAddr ++ (1#1)

/-- The nine events of one register write (R151); its three acknowledge bits are the peer's answers from the `k`-th on. -/
def writeEvents (s : State) (k : Nat) (r v : Byte) : List Event :=
  [.start, .delay .step,
   .tx (wireAddrW s) (s.ackAhead k), .delay .step,
   .tx (0x80#8 ||| r) (s.ackAhead (k + 1)), .delay .step,
   .tx v (s.ackAhead (k + 2)), .delay .step,
   .stop]

/-- The thirteen events of one register read (R152); it takes the peer's acknowledge bits from the `k`-th on, and the
peer's `j`-th byte. -/
def readEvents (s : State) (k j : Nat) (r : Byte) : List Event :=
  [.start, .delay .step,
   .tx (wireAddrW s) (s.ackAhead k), .delay .step,
   .tx (0x80#8 ||| r) (s.ackAhead (k + 1)), .delay .step,
   .restart, .delay .step,
   .tx (wireAddrR s) (s.ackAhead (k + 2)), .delay .step,
   .rx (s.byteAhead j),
   .stop, .delay .settle]

/-- `HI ++ LO` of the peer's `j`-th and next byte, the low byte first (R71, R94). -/
def reading (s : State) (j : Nat) : Half := s.byteAhead (j + 1) ++ s.byteAhead j

/-- The arguments of the step relation after `n` scheduling choices, `a` acknowledge bits and `b` bytes are taken. -/
def envTaken (n a b : Nat) (e : Env) : Env :=
  { e with turns := e.turns.take n, acks := e.acks.take a, bytes := e.bytes.take b }

/-- The phases in which a command is misused (R183, the row `PROTOCOL`). -/
def misusedIn : Instr → List Phase
  | .init | .idle => []
  | .start => [.addr, .txw, .rxr, .rxb, .rxend]
  | .restart => [.idle, .addr]
  | .stop => [.idle]
  | .ack | .nack => [.idle, .addr, .txw, .rxr, .rxend]
  | .send _ => [.idle, .rxr, .rxb, .rxend]
  | .read => [.idle, .addr, .txw, .rxb, .rxend]
  | .writeReg _ _ | .readReg _ | .read16 _ | .readChannels | .enable | .disable => [.addr, .txw, .rxr, .rxb, .rxend]

/-- What a run cannot tell of the peer's acknowledge bits: the state without `ackstat`, the bits to come, and the bits in
the trace. -/
def withoutAcks (s : State) : State :=
  { s with
    ackstat := 0
    trace := s.trace.map (fun e => match e with
      | .tx b _ => .tx b 0
      | .start => .start
      | .restart => .restart
      | .stop => .stop
      | .rx v => .rx v
      | .mack => .mack
      | .mnack => .mnack
      | .delay k => .delay k)
    env := { s.env with acks := ⟨[], 0⟩ } }

/-- The state without its scheduling choices. -/
def withoutTurns (s : State) : State := { s with env := { s.env with turns := ⟨[], 0⟩ } }

/-- The events that a step from `s` to `t` appended. -/
def newEvents (s t : State) : List Event := t.trace.drop s.trace.length

end Sys2Proof.Machine

/-! ### Encodings -/

/-- Words of 30_encoding.md R103 decode to the commands they stand for: a sanity statement. -/
def Obligations.TableWordsDecode : Prop :=
  decode 0x010000#24 = .command .init ∧ decode 0x020000#24 = .command .start ∧
    decode 0x085200#24 = .command (.send 0x52) ∧ decode 0x090000#24 = .command .read ∧
    decode 0x10FF7F#24 = .command (.writeReg 0xFF 0x7F) ∧ decode 0x110100#24 = .command (.readReg 0x01) ∧
    decode 0x121400#24 = .command (.read16 0x14) ∧ decode 0x150000#24 = .command .disable ∧
    decode 0x000000#24 = .illegal (.unassignedOp 0x00) ∧ decode 0x017F00#24 = .illegal (.nonzeroA 0x7F) ∧
    decode 0x110101#24 = .illegal (.nonzeroB 0x01)

/-- Decoding an encoded instruction gives it back, for every instruction and every operand (R97 to R99, R101). -/
def Obligations.DecodeOfEncode : Prop :=
  ∀ i : Instr, decode (encode i) = .command i

/-- A word has one meaning: the instruction that it decodes to encodes to it (R97 to R99, R101). -/
def Obligations.EncodeOfDecode : Prop :=
  ∀ (w : Word) (i : Instr), decode w = .command i → encode i = w

/-- R97's `legal(w)`, the decoder, and R98's match and mask accept the same words. -/
def Obligations.LegalWordsAreTheTables : Prop :=
  ∀ w : Word, (legal w = true ↔ ∃ i, decode w = .command i) ∧
    (legal w = true ↔ ∃ row ∈ opcodeMap, row.matchesWord w = true)

/-- R100: the words the decoder refuses are those with an unassigned OP, and those with an assigned OP and a non-zero field
that must be 0x00; a word that the host issues and the decoder refuses raises `ILLEGAL_COMMAND`. -/
def Obligations.IllegalWords : Prop :=
  ∀ w : Word,
    let op := (w.extractLsb' 16 8).toNat
    let a := (w.extractLsb' 8 8).toNat
    let b := (w.extractLsb' 0 8).toNat
    ((∃ r, decode w = .illegal r) ↔
      (op = 0 ∨ (0x0A ≤ op ∧ op ≤ 0x0F) ∨ 0x16 ≤ op) ∨
      (((0x01 ≤ op ∧ op ≤ 0x07) ∨ op = 0x09 ∨ (0x13 ≤ op ∧ op ≤ 0x15)) ∧ (a ≠ 0 ∨ b ≠ 0)) ∨
      ((op = 0x08 ∨ op = 0x11 ∨ op = 0x12) ∧ b ≠ 0)) ∧
    ∀ (r : Reject) (s : State), decode w = .illegal r → s.busy = false → s.fault = none → dueRead s = none →
      fetchWord s = some w →
      step s = .next { s with fault := some ⟨.illegalCommand, some w, .microOp 0, s.phase⟩ }

/-- R90: the address byte is the address shifted left by one, with the direction in bit 0; the two transactions of which
every sensor command is made send it first after a start and after a repeated start. -/
def Obligations.AddressByte : Prop :=
  (∀ (p : Params) (r v : Byte),
    (expand p (.writeReg r v)).take 3 = [.uStart, .uDelay .step, .uSend (addrW p)] ∧
    (expand p (.readReg r)).take 3 = [.uStart, .uDelay .step, .uSend (addrW p)] ∧
    ((expand p (.readReg r)).drop 6).take 3 = [.uRestart, .uDelay .step, .uSend (addrR p)]) ∧
  ∀ p : Params,
    (addrW p).toNat = 2 * p.devAddr.toNat ∧ (addrR p).toNat = 2 * p.devAddr.toNat + 1 ∧
    addrW p = (p.devAddr ++ (0#1) : BitVec 8) ∧ addrR p = (p.devAddr ++ (1#1) : BitVec 8) ∧
    (p.devAddr = 0x29 → addrW p = 0x52 ∧ addrR p = 0x53)

/-- R91: the direction of a transaction is bit 0 of the byte sent in phase `ADDR`; the upper bits are not looked at. -/
def Obligations.DirectionIsBitZero : Prop :=
  ∀ b : Byte,
    (b.getLsbD 0 = false → (MicroOp.uSend b).phaseAfter .addr = .txw) ∧
    (b.getLsbD 0 = true → (MicroOp.uSend b).phaseAfter .addr = .rxr) ∧
    (MicroOp.uSend b).acceptedIn .addr = true

/-- R92: the command byte sets the top bit, so that `r` and `r & 0x7F` give the same one; it is sent for every `r`. -/
def Obligations.CommandByte : Prop :=
  (∀ (p : Params) (r v : Byte), (expand p (.writeReg r v))[4]? = some (.uSend (cmdByte r)) ∧
    (expand p (.readReg r))[4]? = some (.uSend (cmdByte r))) ∧
  (∀ r : Byte, cmdByte r = 0x80#8 ||| r ∧ (0x80 ≤ r.toNat → cmdByte r = r) ∧ cmdByte (r &&& 0x7F#8) = cmdByte r) ∧
    cmdByte 0x00 = 0x80 ∧ cmdByte 0x01 = 0x81 ∧ cmdByte 0x0F = 0x8F ∧ cmdByte 0x14 = 0x94 ∧ cmdByte 0x16 = 0x96 ∧
    cmdByte 0x18 = 0x98 ∧ cmdByte 0x1A = 0x9A

/-- R94: a 16-bit value is its high byte above its low byte, and the high byte's address wraps only at 0xFF; a 16-bit read
takes its low byte from the first register read and its high byte from the second. -/
def Obligations.SixteenBitComposition : Prop :=
  (∀ (p : Params) (r : Byte), expand p (.read16 r) =
    expand p (.readReg r) ++ [.uMovLo] ++ expand p (.readReg (highReg r)) ++ [.uMovHi, .uCompose]) ∧
  (∀ (s : State) (n : Nat) (hi lo : Byte), s.hi = some hi → s.lo = some lo →
    issue .uCompose n s = { s with res := some (compose16 hi lo) }) ∧
  (∀ hi lo : Byte,
    compose16 hi lo = (hi ++ lo : BitVec 16) ∧ (compose16 hi lo).toNat = 256 * hi.toNat + lo.toNat ∧
    (compose16 hi lo).extractLsb' 8 8 = hi ∧ (compose16 hi lo).extractLsb' 0 8 = lo) ∧
  (∀ r : Byte, (highReg r).toNat = (r.toNat + 1) % 256) ∧ ∀ r : Byte, (highReg r).toNat ≠ r.toNat + 1 ↔ r = 0xFF

/-! ### The host -/

/-- A step of the machine whose host issues a word that decodes to `i` is `exec i`; the machine moves `cp` on at the
command's end, so `step` adds nothing (R24, R40). That no host read is due is log 9. -/
def Obligations.StepRunsTheDecodedCommand : Prop :=
  ∀ (s : State) (w : Word) (i : Instr),
    s.busy = false → s.fault = none → dueRead s = none → fetchWord s = some w → decode w = .command i →
    step s = exec i s

/-- Issuing a command sets `cur`, `mp`, `seq`, `wst` and `busy` as R40 says, and then the block runs (log 1). -/
def Obligations.IssueBeginsTheMicroProgram : Prop :=
  ∀ (i : Instr) (s : State),
    exec i s = .next (runBlock { s with
      cur := some (encode i), mp := expand s.env.params i, seq := 0, wst := .none, busy := true })

/-- R40, its last part: while the block is busy the host has no step, so that no command is issued or read made. A step
is as in log 1. -/
def Obligations.BusyBlockHoldsTheHost : Prop :=
  ∀ s : State, s.busy = true → s.fault = none →
    ∃ t, step s = .next t ∧ t.cur = s.cur ∧ t.mp = s.mp ∧ t.env.delivered = s.env.delivered ∧
      t.env.reads = s.env.reads

/-- R22 and R183: a host read of a register that holds `⊥` raises `UNWRITTEN`, and any other delivers its value and
leaves the block as it was. When the host reads, and the list of delivered values, are log 9. -/
def Obligations.HostReadDeliversOrFaults : Prop :=
  ∀ (s : State) (r : ResultReg), s.busy = false → s.fault = none → dueRead s = some r →
    (s.result r = none →
      step s = .next { s with fault := some ⟨.unwritten, none, .register r, s.phase⟩ }) ∧
    ∀ v, s.result r = some v →
      step s = .next { s with env :=
        { s.env with reads := s.env.reads.tail, delivered := s.env.delivered ++ [(r, v)] } }

/-- R181: from a faulted state on, no agent has a step. -/
def Obligations.FaultedStateHasNoStep : Prop :=
  ∀ (s : State) (r : FaultRecord), s.fault = some r → step s = .fault (.faulted r)

/-- A run that is over is a clean or an open end by its phase, never a faulted one (R217); with no read due the block waits
for the host, unchanged, which is the model's choice (log 3). -/
def Obligations.EndedRunWaits : Prop :=
  ∀ s : State, RunOver s → dueRead s = none →
    step s = .next s ∧ (CleanEnd s ↔ s.phase = .idle) ∧ (OpenEnd s ↔ s.phase ≠ .idle) ∧ ¬ FaultedEnd s

/-- R38: the reset value of every piece of state. -/
def Obligations.ResetState : Prop :=
  let s := State.reset
  (s.res = none ∧ (∀ c, s.ch.get c = none) ∧ s.rb = none ∧ s.lo = none ∧ s.hi = none ∧ s.buf = none) ∧
    (s.cp = 0 ∧ s.busy = false ∧ s.seq = 0 ∧ s.cur = none ∧ s.mp = [] ∧ s.wst = .none) ∧
    (s.sen = false ∧ s.rsen = false ∧ s.pen = false ∧ s.rcen = false ∧ s.acken = false) ∧
    (s.bf = false ∧ s.tip = false ∧ s.wcol = false ∧ s.ackstat = 0 ∧ s.ackdt = 0) ∧
    (s.en = false ∧ s.mode = 0b0000 ∧ s.smp = false ∧ s.brg = 0x00 ∧ s.sclDir = true ∧ s.sdaDir = true) ∧
    s.phase = .idle ∧ s.init = false ∧ s.fault = none ∧ s.trace = []

/-! ### Faults -/

/-- Before `INIT` every other command raises `NOT_INIT` at its first micro-op, and has no other effect (R120, R183).
That all of it is one step of the model is log 1. -/
def Obligations.NotInitFault : Prop :=
  ∀ (i : Instr) (s : State), Ready s → s.init = false → i ≠ .init →
    exec i s = .next (commandFaulted i .notInit s)

/-- A second `INIT` raises `REINIT`, and has no other effect (R120, R121, R183). That all of it is one step of the model
is log 1. -/
def Obligations.ReinitFault : Prop :=
  ∀ s : State, Ready s → s.init = true → exec .init s = .next (commandFaulted .init .reinit s)

/-- A command in a phase that its row of R183 names raises `PROTOCOL` with that phase, and has no other effect. That all
of it is one step of the model is log 1. -/
def Obligations.ProtocolFault : Prop :=
  ∀ (i : Instr) (s : State), Ready s → s.init = true → s.phase ∈ misusedIn i →
    exec i s = .next (commandFaulted i .protocol s)

/-! ### The transport commands -/

/-- R121: the first `INIT` writes the control fields, clears the flags, and completes without a bus event. That all of
it is one step of the model is log 1. -/
def Obligations.InitCompletes : Prop :=
  ∀ s : State, Ready s → s.init = false →
    exec .init s = .next { commandDone .init 1 s with
      sclDir := true, sdaDir := true, smp := true, mode := 0b1000, en := true, brg := s.env.params.brg,
      sen := false, rsen := false, pen := false, rcen := false, acken := false, ackdt := 0, wcol := false,
      init := true }

/-- `START` in `IDLE` emits a start and leaves the phase `ADDR`; `RESTART` after an address byte emits a repeated start
and leaves `ADDR`; `STOP` in a transaction emits a stop and leaves `IDLE`; each changes nothing else (R122 to R124).
That all of it is one step of the model is log 1. -/
def Obligations.ConditionsComplete : Prop :=
  ∀ s : State, Ready s → s.init = true → Prompt 1 s →
    (s.phase = .idle →
      exec .start s = .next { commandDone .start 1 s with
        trace := s.trace ++ [.start], phase := .addr, env := envTaken 1 0 0 s.env }) ∧
    (s.phase ∈ [Phase.txw, .rxr, .rxb, .rxend] →
      exec .restart s = .next { commandDone .restart 1 s with
        trace := s.trace ++ [.restart], phase := .addr, env := envTaken 1 0 0 s.env }) ∧
    (s.phase ≠ .idle →
      exec .stop s = .next { commandDone .stop 1 s with
        trace := s.trace ++ [.stop], phase := .idle, env := envTaken 1 0 0 s.env })

/-- `ACK` and `NACK` after a received byte set `ackdt`, emit the bit they send, and leave `RXR` or `RXEND`; each changes
nothing else (R125, R126). That all of it is one step of the model is log 1. -/
def Obligations.AcknowledgesComplete : Prop :=
  ∀ s : State, Ready s → s.init = true → s.phase = .rxb → Prompt 1 s →
    exec .ack s = .next { commandDone .ack 1 s with
      ackdt := 0, trace := s.trace ++ [.mack], phase := .rxr, env := envTaken 1 0 0 s.env } ∧
    exec .nack s = .next { commandDone .nack 1 s with
      ackdt := 1, trace := s.trace ++ [.mnack], phase := .rxend, env := envTaken 1 0 0 s.env }

/-- `IDLE` as a host command completes at once in every phase, and changes nothing but the sequencer's fields (R127).
That all of it is one step of the model is log 1. -/
def Obligations.IdleCompletes : Prop :=
  ∀ s : State, Ready s → s.init = true → exec .idle s = .next (commandDone .idle 1 s)

/-- `SEND b` in `ADDR` or `TXW` sends `b`, keeps the peer's answer in `ackstat` whatever it is, and leaves the phase
that bit 0 of an address byte selects, or `TXW`; it changes nothing else (R128). That all of it is one step of the model
is log 1. -/
def Obligations.SendCompletes : Prop :=
  ∀ (b : Byte) (s : State), Ready s → s.init = true → (s.phase = .addr ∨ s.phase = .txw) → Prompt 3 s →
    ∃ n, exec (.send b) s = .next { commandDone (.send b) 1 s with
      buf := some b, ackstat := s.ackAhead 0, trace := s.trace ++ [.tx b (s.ackAhead 0)],
      phase := if s.phase = .addr ∧ b.getLsbD 0 = true then .rxr else .txw,
      env := envTaken n 1 0 s.env }

/-- `READ` in `RXR` receives the peer's byte into `BUF`, `RB` and, zero-extended, `RES`, and leaves `RXB`; it changes
nothing else (R129). That all of it is one step of the model is log 1. -/
def Obligations.ReadCompletes : Prop :=
  ∀ s : State, Ready s → s.init = true → s.phase = .rxr → Prompt 1 s →
    exec .read s = .next { commandDone .read 1 s with
      buf := some (s.byteAhead 0), rb := some (s.byteAhead 0), res := some ((0#8) ++ s.byteAhead 0),
      trace := s.trace ++ [.rx (s.byteAhead 0)], phase := .rxb, env := envTaken 1 0 1 s.env }

/-! ### The sensor commands -/

/-- `WRITE_REG r, v` emits the nine events of R151 and leaves the bus idle; of the registers only `BUF` (the last byte
sent) and `ackstat` change. That all of it is one step of the model is log 1. -/
def Obligations.WriteRegCompletes : Prop :=
  ∀ (r v : Byte) (s : State), Ready s → s.init = true → s.phase = .idle → Prompt 11 s →
    ∃ n, exec (.writeReg r v) s = .next { commandDone (.writeReg r v) 9 s with
      trace := s.trace ++ writeEvents s 0 r v, buf := some v, ackstat := s.ackAhead 2,
      env := envTaken n 3 0 s.env }

/-- `READ_REG r` emits the thirteen events of R152 with the peer's byte in them, writes that byte to `RB` and `RES`, and
leaves the bus idle; nothing else changes but `BUF` and `ackstat`. That all of it is one step of the model is log 1. -/
def Obligations.ReadRegCompletes : Prop :=
  ∀ (r : Byte) (s : State), Ready s → s.init = true → s.phase = .idle → Prompt 13 s →
    ∃ n, exec (.readReg r) s = .next { commandDone (.readReg r) 13 s with
      trace := s.trace ++ readEvents s 0 0 r, buf := some (s.byteAhead 0), rb := some (s.byteAhead 0),
      res := some ((0#8) ++ s.byteAhead 0), ackstat := s.ackAhead 2, env := envTaken n 3 1 s.env }

/-- `READ16 r` makes two register reads, at `r` and at `(r + 1) mod 256`, and leaves their bytes in `LO` and `HI` and
the value `HI ++ LO` in `RES`; the channel registers keep their values (R153). That all of it is one step of the model
is log 1. -/
def Obligations.Read16Completes : Prop :=
  ∀ (r : Byte) (s : State), Ready s → s.init = true → s.phase = .idle → Prompt 26 s →
    ∃ n, exec (.read16 r) s = .next { commandDone (.read16 r) 29 s with
      trace := s.trace ++ readEvents s 0 0 r ++ readEvents s 3 1 (r + 1),
      buf := some (s.byteAhead 1), rb := some (s.byteAhead 1), lo := some (s.byteAhead 0), hi := some (s.byteAhead 1),
      res := some (reading s 0), ackstat := s.ackAhead 5, env := envTaken n 6 2 s.env }

/-- `READ_CHANNELS` makes eight register reads, at 0x14 to 0x1B in order, and assigns the four readings to clear, red,
green and blue; `RES` ends equal to blue (R154). That all of it is one step of the model is log 1. -/
def Obligations.ReadChannelsCompletes : Prop :=
  ∀ s : State, Ready s → s.init = true → s.phase = .idle → Prompt 104 s →
    ∃ n, exec .readChannels s = .next { commandDone .readChannels 120 s with
      trace := s.trace ++ (readEvents s 0 0 0x14 ++ readEvents s 3 1 0x15 ++ readEvents s 6 2 0x16 ++
        readEvents s 9 3 0x17 ++ readEvents s 12 4 0x18 ++ readEvents s 15 5 0x19 ++ readEvents s 18 6 0x1A ++
        readEvents s 21 7 0x1B),
      ch := ⟨some (reading s 0), some (reading s 2), some (reading s 4), some (reading s 6)⟩,
      res := some (reading s 6), buf := some (s.byteAhead 7), rb := some (s.byteAhead 7),
      lo := some (s.byteAhead 6), hi := some (s.byteAhead 7), ackstat := s.ackAhead 23,
      env := envTaken n 24 8 s.env }

/-- `ENABLE` writes 1 and then 3 to register 0 with the power delay between, then the integration time to register 1,
then the gain to register 15; no result register changes (R155). That all of it is one step of the model is log 1. -/
def Obligations.EnableCompletes : Prop :=
  ∀ s : State, Ready s → s.init = true → s.phase = .idle → Prompt 44 s →
    ∃ n, exec .enable s = .next { commandDone .enable 37 s with
      trace := s.trace ++ (writeEvents s 0 0x00 0x01 ++ [.delay .power] ++ writeEvents s 3 0x00 0x03 ++
        writeEvents s 6 0x01 s.env.params.atimeLongest ++ writeEvents s 9 0x0F s.env.params.gainUnity),
      buf := some s.env.params.gainUnity, ackstat := s.ackAhead 11, env := envTaken n 12 0 s.env }

/-- `DISABLE` is one write of 0 to register 0; no result register changes (R156). That all of it is one step of the
model is log 1. -/
def Obligations.DisableCompletes : Prop :=
  ∀ s : State, Ready s → s.init = true → s.phase = .idle → Prompt 11 s →
    ∃ n, exec .disable s = .next { commandDone .disable 9 s with
      trace := s.trace ++ writeEvents s 0 0x00 0x00, buf := some 0x00, ackstat := s.ackAhead 2,
      env := envTaken n 3 0 s.env }

/-- A sensor command that completes leaves the bus idle, at whatever step it completes and however it was delayed
(R158). The granularity of a step is log 1. -/
def Obligations.SensorCommandsReturnToIdle : Prop :=
  ∀ (i : Instr) (s t : State), BlockInv s → isSensor i = true →
    ((s.busy = true ∧ s.cur = some (encode i)) ∨
      (s.busy = false ∧ dueRead s = none ∧ fetchWord s = some (encode i))) →
    step s = .next t → t.busy = false → t.phase = .idle

/-! ### The sequencer and the engine -/

/-- R41: the sequencer has a step only in a busy state without a fault; it ends a hold whose condition is met, or issues the
next micro-op, or completes the command. -/
def Obligations.SequencerStep : Prop :=
  ∀ s : State,
    (s.busy = false ∨ s.fault ≠ none → sequencerStep s = none) ∧
    (s.busy = true → s.fault = none →
      (s.wst ≠ .none → sequencerStep s = if s.cond s.wst = true then some (post s.wst s) else none) ∧
      (s.wst = .none → ∀ h : s.seq < s.mp.length,
        sequencerStep s = some (issue s.mp[s.seq] s.seq { s with seq := s.seq + 1 })) ∧
      (s.wst = .none → s.mp.length ≤ s.seq → sequencerStep s = some { s with busy := false, cp := s.cp + 1 }))

/-- R150: a settling delay emits its event, the moves and the composition write one register each, and none of them has a
check or a wait. The composition is stated for written halves; the moves of an unwritten `RB` or `RES` are the model's
choice (log 7), and so is the unit of the durations, the whole microsecond (log 17). -/
def Obligations.DelaysAndMoves : Prop :=
  (∀ (n : Nat) (s : State),
    (∀ k, issue (.uDelay k) n s = { s with trace := s.trace ++ [.delay k] }) ∧
    issue .uMovLo n s = { s with lo := s.rb } ∧
    issue .uMovHi n s = { s with hi := s.rb } ∧
    (∀ hi lo, s.hi = some hi → s.lo = some lo → issue .uCompose n s = { s with res := some (hi ++ lo) }) ∧
    (∀ c, (issue (.uStch c) n s).ch.get c = s.res ∧ { issue (.uStch c) n s with ch := s.ch } = s ∧
      ∀ d, d ≠ c → (issue (.uStch c) n s).ch.get d = s.ch.get d)) ∧
  ∀ p : Params, delayMicros p .step = p.dStep ∧ delayMicros p .settle = 100000 ∧ delayMicros p .power = p.dPower

/-- R42: which micro-op sets each hold, what ends it, and what its end does; that the end of `W_BF1` copies an unwritten
`BUF` is the model's choice (log 7). -/
def Obligations.WaitStates : Prop :=
  (∀ (s : State) (b : Byte), (MicroOp.effect .uStart s).wst = .wSen ∧ (MicroOp.effect .uRestart s).wst = .wRsen ∧
    (MicroOp.effect .uStop s).wst = .wPen ∧ (MicroOp.effect .uAck s).wst = .wAcken ∧
    (MicroOp.effect .uNack s).wst = .wAcken ∧ (MicroOp.effect (.uSend b) s).wst = .wBf0 ∧
    (MicroOp.effect .uIdle s).wst = .wIdle ∧ (MicroOp.effect .uRead s).wst = .wBf1) ∧
  ∀ s : State, s.busy = true → s.fault = none →
    (s.wst = .wSen → sequencerStep s = if s.sen = false then some { s with wst := .none } else none) ∧
    (s.wst = .wRsen → sequencerStep s = if s.rsen = false then some { s with wst := .none } else none) ∧
    (s.wst = .wPen → sequencerStep s = if s.pen = false then some { s with wst := .none } else none) ∧
    (s.wst = .wAcken → sequencerStep s = if s.acken = false then some { s with wst := .none } else none) ∧
    (s.wst = .wBf0 → sequencerStep s = if s.bf = false then some { s with wst := .wIdle } else none) ∧
    (s.wst = .wIdle → sequencerStep s =
      if s.sen = false ∧ s.rsen = false ∧ s.pen = false ∧ s.rcen = false ∧ s.acken = false ∧ s.tip = false ∧
        s.wcol = false then some { s with wst := .none } else none) ∧
    (s.wst = .wBf1 → sequencerStep s =
      if s.bf = true then
        some { s with rb := s.buf, bf := false, res := s.buf.map (fun v => (0#8) ++ v), wst := .none }
      else none)

/-- R128, the collision branch: a byte sent while anything is armed or in transfer sets `wcol` alone, and neither writes
`BUF` nor arms anything. -/
def Obligations.WriteCollision : Prop :=
  ∀ (b : Byte) (n : Nat) (s : State), s.init = true → (s.phase = .addr ∨ s.phase = .txw) →
    (s.sen = true ∨ s.rsen = true ∨ s.pen = true ∨ s.rcen = true ∨ s.acken = true ∨ s.tip = true ∨ s.bf = true) →
    issue (.uSend b) n s = { s with
      wcol := true, wst := .wBf0, phase := if s.phase = .addr ∧ b.getLsbD 0 = true then .rxr else .txw }

/-- R63, R64, R65 and R69: when the engine's steps on the conditions and the acknowledge sequence are enabled, and what they
do; an enabled step is the engine's step. -/
def Obligations.EngineCompletesConditions : Prop :=
  (∀ s : State,
    ((EngineAction.enabled s .start = true ↔ s.sen = true ∧ s.master = true) ∧
      EngineAction.perform .start s = { s with trace := s.trace ++ [.start], sen := false }) ∧
    ((EngineAction.enabled s .restart = true ↔ s.rsen = true ∧ s.master = true) ∧
      EngineAction.perform .restart s = { s with trace := s.trace ++ [.restart], rsen := false }) ∧
    ((EngineAction.enabled s .stop = true ↔ s.pen = true ∧ s.master = true) ∧
      EngineAction.perform .stop s = { s with trace := s.trace ++ [.stop], pen := false }) ∧
    ((EngineAction.enabled s .ackSequence = true ↔ s.acken = true ∧ s.master = true) ∧
      EngineAction.perform .ackSequence s =
        { s with trace := s.trace ++ [if s.ackdt = 0 then .mack else .mnack], acken := false })) ∧
  ∀ (s : State) (a : EngineAction), BlockInv s → EngineAction.enabled s a = true → engineStep s = some (a.perform s)

/-- R67 and R68: when the engine's steps on a byte are enabled, and what they do; a transmission appends its event at the
acknowledge clock. -/
def Obligations.EngineMovesBytes : Prop :=
  ∀ s : State,
    ((EngineAction.enabled s .receive = true ↔ s.rcen = true ∧ s.master = true) ∧
      EngineAction.perform .receive s = { s with
        buf := some (s.byteAhead 0), bf := true, rcen := false, trace := s.trace ++ [.rx (s.byteAhead 0)],
        env := envTaken 0 0 1 s.env }) ∧
    ((EngineAction.enabled s .shift = true ↔ s.bf = true ∧ s.tip = true ∧ s.master = true) ∧
      EngineAction.perform .shift s = { s with bf := false }) ∧
    ((EngineAction.enabled s .ackClock = true ↔ s.bf = false ∧ s.tip = true ∧ s.master = true) ∧
      ∀ b, s.buf = some b → EngineAction.perform .ackClock s = { s with
        ackstat := s.ackAhead 0, tip := false, trace := s.trace ++ [.tx b (s.ackAhead 0)],
        env := envTaken 0 1 0 s.env }) ∧
    (BlockInv s → EngineAction.enabled s .ackClock = true → ∃ b, s.buf = some b)

/-- R70: at most one engine step is enabled, in every state that a run reaches and in every other invariant state. -/
def Obligations.OneEngineStepAtMost : Prop :=
  ∀ (s : State) (a b : EngineAction), BlockInv s → a.enabled s = true → b.enabled s = true → a = b

/-- A start that the engine does not complete holds the sequencer, with nothing emitted and no fault (R122, R186). The
resting point is log 1 and log 2. -/
def Obligations.StartIsHeldUntilTheEngineActs : Prop :=
  ∀ s : State, Ready s → s.init = true → s.phase = .idle → s.turnAhead 0 = .pause →
    exec .start s = .next { s with
      cur := some (encode .start), mp := [.uStart], seq := 1, wst := .wSen, busy := true, sen := true, phase := .addr,
      env := envTaken 1 0 0 s.env }

/-- R186: the three hangs. An engine step that is postponed leaves the held block as it was; a collision at `W_IDLE` and
a receive without master mode leave it so for ever. What a step is here is log 1 and log 2. -/
def Obligations.HeldBlockStays : Prop :=
  ∀ s : State, s.busy = true → s.fault = none →
    ((∃ a : EngineAction, a.enabled s = true) → s.turnAhead 0 = .pause →
      step s = .next { s with env := envTaken 1 0 0 s.env }) ∧
    ((∀ a : EngineAction, a.enabled s = false) →
      (s.wst = .wIdle ∧ s.wcol = true) ∨ (s.wst = .wBf1 ∧ s.bf = false ∧ s.master = false) →
      (∀ n, trajectory s n = s) ∧ Hangs s)

/-! ### Whole-machine rules -/

/-- The invariant holds at reset. -/
def Obligations.ResetKeepsInvariant : Prop := BlockInv State.reset

/-- Every step keeps the invariant: the flags match what the sequencer is held on, the control fields are as `INIT` left
them, `cp` and `seq` stay in range, and a sensor command faults at its first micro-op or not at all (R31, R43, R70, R183). -/
def Obligations.StepKeepsInvariant : Prop :=
  ∀ s t : State, BlockInv s → step s = .next t → BlockInv t

/-- R43: whenever the block is not busy and not faulted, nothing is armed, in transfer or collided. A step is as in log
1. -/
def Obligations.NotBusyIsQuiescent : Prop :=
  ∀ s t : State, BlockInv s → step s = .next t → t.busy = false → t.fault = none →
    t.sen = false ∧ t.rsen = false ∧ t.pen = false ∧ t.rcen = false ∧ t.acken = false ∧ t.tip = false ∧
      t.bf = false ∧ t.wcol = false

/-- `H` only grows: no step removes or reorders an event (R36, R62). -/
def Obligations.TraceOnlyGrows : Prop :=
  ∀ s t : State, step s = .next t → ∃ es, t.trace = s.trace ++ es

/-- No step writes the host program or the parameters (R79, R212). -/
def Obligations.ProgramIsNeverWritten : Prop :=
  ∀ s t : State, step s = .next t → t.env.program = s.env.program ∧ t.env.params = s.env.params

/-- `cp` moves on by exactly one, when a command completes, and not otherwise (R24, R25, R41): a step that runs a command
completes it without a fault and moves `cp` on by one, or leaves it executing with `cp` as it was; every other step (a host
read, an illegal word, the wait at the end) leaves `cp` as it was and the block not busy. That a step is a whole command or
its run to a rest is log 1, that an ended run waits is log 3, and when a host read is due is log 9. -/
def Obligations.CommandPointerCountsCompletions : Prop :=
  ∀ s t : State, step s = .next t →
    (RunsCommand s →
      (t.busy = false ∧ t.fault = none ∧ t.cp = s.cp + 1) ∨ (t.busy = true ∧ t.cp = s.cp)) ∧
    (¬ RunsCommand s → t.busy = false ∧ t.cp = s.cp)

/-- After `INIT` no step writes a control field, and the peripheral stays in master mode (R31, R33). -/
def Obligations.ControlFieldsStayAfterInit : Prop :=
  ∀ s t : State, BlockInv s → s.init = true → step s = .next t →
    t.init = true ∧ t.master = true ∧ t.en = s.en ∧ t.mode = s.mode ∧ t.smp = s.smp ∧ t.brg = s.brg ∧
      t.sclDir = s.sclDir ∧ t.sdaDir = s.sdaDir

/-- A NACK cannot be detected: two states that differ only in the peer's acknowledge bits take steps to states that differ
only in them (R28, R128, R130, R215). -/
def Obligations.AcknowledgeBitsAreNeverRead : Prop :=
  ∀ s s' t : State, withoutAcks s = withoutAcks s' → step s = .next t →
    ∃ t', step s' = .next t' ∧ withoutAcks t = withoutAcks t'

/-- The order of the agents' steps does not show: a command that is never held up ends in the same state under any two
schedules (the micro-step vectors of 95_test_vectors.md L2.3; 92 D15, D16). Where a schedule is consulted is log 2. -/
def Obligations.ScheduleDoesNotShow : Prop :=
  ∀ (i : Instr) (s t : State) (q : Supply Turn), Ready s →
    Prompt (turnsEnough i) s → Prompt (turnsEnough i) { s with env := { s.env with turns := q } } →
    exec i s = .next t →
    ∃ t', exec i { s with env := { s.env with turns := q } } = .next t' ∧ withoutTurns t = withoutTurns t'

/-- R186: under `BUS_HEALTHY` every command that does not fault completes, and no run hangs. The runs are those of log 1
to log 3. -/
def Obligations.HealthyBusCompletesCommands : Prop :=
  (∀ s : State, BlockInv s → s.busy = true → s.fault = none → BusHealthy s →
    ∃ n, (trajectory s n).fault ≠ none ∨ (trajectory s n).busy = false) ∧
  ∀ s : State, BlockInv s → BusHealthy s → ¬ Hangs s

/-! ### The fixtures: reference peer, timing, register mapping -/

/-- Where the answers are the reference peer's, `READ_REG` returns the register that `CMD(r)` selects, and changes none
(R72, R92, R152). -/
def Obligations.ReferencePeerRead : Prop :=
  ∀ (q : RefPeer) (r : Byte) (s : State), Ready s → s.init = true → s.phase = .idle → Prompt 13 s →
    ∃ t, exec (.readReg r) s = .next t ∧
      (q.answersAll (newEvents s t) = true →
        t.res = some ((0#8) ++ q.reg (r.setWidth 7)) ∧ ∀ i, (q.after (newEvents s t)).reg i = q.reg i)

/-- `WRITE_REG` writes the reference peer's register that `CMD(r)` selects, and no other (R72, R92, R151). -/
def Obligations.ReferencePeerWrite : Prop :=
  ∀ (q : RefPeer) (r v : Byte) (s : State), Ready s → s.init = true → s.phase = .idle → Prompt 11 s →
    ∃ t, exec (.writeReg r v) s = .next t ∧
      ∀ i, (q.after (newEvents s t)).reg i = if i = r.setWidth 7 then v else q.reg i

/-- The settling delays of the sensor commands (R221's lower bounds), in whole microseconds, which is the model's choice of
unit (log 17). -/
def Obligations.DelayLowerBounds : Prop :=
  ∀ (i : Instr) (s t : State), Ready s → s.init = true → s.phase = .idle → Prompt (turnsEnough i) s →
    exec i s = .next t →
    let p := s.env.params
    let d := traceDelayMicros p (newEvents s t)
    (∀ r, i = .readReg r → d = 5 * p.dStep + 100000) ∧
      (i = .readChannels → d = 8 * (5 * p.dStep + 100000)) ∧
      (∀ r v, i = .writeReg r v → d = 4 * p.dStep) ∧
      (i = .enable → d = 16 * p.dStep + p.dPower)

/-- The informative mapping of R37 at reset and after the first `INIT`. -/
def Obligations.MappedRegistersAfterInit : Prop :=
  (Sfr.value State.reset .sspcon1 = some 0x00 ∧ Sfr.value State.reset .sspcon2 = some 0x00 ∧
    Sfr.value State.reset .sspstat = some 0x00 ∧ Sfr.value State.reset .sspadd = some 0x00 ∧
    Sfr.value State.reset .sspbuf = none ∧ Sfr.value State.reset .trisc = some 0xFF) ∧
  ∀ s t : State, Ready s → s.init = false → exec .init s = .next t →
    Sfr.value t .sspcon1 = some 0x28 ∧ Sfr.value t .sspstat = some 0x80 ∧
      Sfr.value t .sspadd = some ((0#1) ++ s.env.params.brg) ∧ Sfr.value t .trisc = some 0xFF
end

