-- ==== Sys2Proof/Laws/Block.lean ====
section
/-! SUPPORT. The run of the block terminates: each turn that an agent takes lowers `work`, so `turnBound` turns are
always enough, and `runBlock` satisfies the equation that its fuel hides. -/

namespace Sys2Proof.Machine

/-- The turns still owed to a hold. -/
def holdWork : WaitState → Nat
  | .none => 0
  | .wBf0 => 2
  | .wSen | .wRsen | .wPen | .wAcken | .wIdle | .wBf1 => 1

/-- The turns still owed to the engine. -/
def engineWork (s : State) : Nat :=
  s.sen.toNat + s.rsen.toNat + s.pen.toNat + s.acken.toNat + 2 * s.rcen.toNat + s.tip.toNat + (s.tip && s.bf).toNat

/-- More than the turns that a run of the block can still take. -/
def work (s : State) : Nat := 5 * (s.mp.length - s.seq) + holdWork s.wst + engineWork s + s.busy.toNat

theorem work_lt_turnBound (s : State) : work s < turnBound s := by
  have h : holdWork s.wst ≤ 2 := by cases s.wst <;> simp [holdWork]
  have hb (b : Bool) : b.toNat ≤ 1 := by cases b <;> simp
  have := hb s.sen; have := hb s.rsen; have := hb s.pen; have := hb s.acken; have := hb s.rcen; have := hb s.tip
  have := hb (s.tip && s.bf); have := hb s.busy
  simp only [work, engineWork, turnBound]
  omega

theorem work_takeTurns (k : Nat) (s : State) : work (takeTurns k s) = work s := rfl

/-- A hold's post takes the hold off, or `W_BF0` on to `W_IDLE`. -/
theorem work_post_lt (s : State) (h : s.wst ≠ .none) : work (post s.wst s) < work s := by
  cases hw : s.wst <;> simp [post, work, engineWork, holdWork, hw] at h ⊢ <;> omega

/-- An issue adds less work than a place in the micro-program counts for. -/
theorem work_effect_le (op : MicroOp) (s : State) :
    holdWork (op.effect s).wst + engineWork (op.effect s) ≤ holdWork s.wst + engineWork s + 4 ∧
      (op.effect s).mp = s.mp ∧ (op.effect s).seq = s.seq ∧ (op.effect s).busy = s.busy := by
  have hb (b : Bool) : b.toNat ≤ 1 := by cases b <;> simp
  have := hb s.sen; have := hb s.rsen; have := hb s.pen; have := hb s.acken; have := hb s.rcen; have := hb s.tip
  have := hb (s.tip && s.bf)
  cases op <;>
    simp [MicroOp.effect, issueInit, issueStart, issueRestart, issueStop, issueAck, issueNack, issueIdle, issueRead,
      issueDelay, issueMovLo, issueMovHi, issueCompose, issueStch, emit, engineWork, holdWork]
  all_goals try omega
  · rename_i b
    by_cases hc : s.collides = true
    · simp [issueSend, writeBuf, hc]; omega
    · simp [issueSend, writeBuf, hc]
      simp [State.collides, State.conditionArmed] at hc
      simp [hc]
  · have := hb (s.rcen || s.master)
    omega

theorem work_issue_lt (op : MicroOp) (n : Nat) (s : State) (h : s.seq < s.mp.length) :
    work (issue op n { s with seq := s.seq + 1 }) < work s := by
  unfold issue
  split
  · simp [raiseFault, work, engineWork]; omega
  · obtain ⟨hle, hmp, hseq, hbusy⟩ := work_effect_le op { s with seq := s.seq + 1 }
    have : engineWork { s with seq := s.seq + 1 } = engineWork s := rfl
    simp only [work, hmp, hseq, hbusy]
    simp only [this] at hle
    omega

/-- Whatever a sequencer step does lowers the work. -/
theorem work_sequencerStep_lt {s t : State} (h : sequencerStep s = some t) : work t < work s := by
  unfold sequencerStep at h
  split at h
  · cases h
  rename_i hb
  split at h
  · rename_i hw
    split at h
    · cases h; exact work_post_lt s hw
    · cases h
  · split at h
    · rename_i hop
      cases h
      exact work_issue_lt _ _ s (by simpa using (List.getElem?_eq_some_iff.mp hop).1)
    · cases h
      simp at hb
      simp [endCommand, work, engineWork, hb.1]

/-- The enabled step that the engine takes is enabled. -/
theorem engineAction_enabled {s : State} {a : EngineAction} (h : engineAction s = some a) : a.enabled s = true :=
  List.find?_some h

/-- Whatever an enabled engine step does lowers the work. -/
theorem work_perform_lt (a : EngineAction) (s : State) (h : a.enabled s = true) : work (a.perform s) < work s := by
  have hb (b : Bool) : b.toNat ≤ 1 := by cases b <;> simp
  have := hb s.tip; have := hb (s.tip && s.bf)
  cases a <;> simp [EngineAction.enabled] at h <;>
    simp [EngineAction.perform, engineStart, engineRestart, engineStop, engineReceive, engineShift, engineAckClock,
      engineAckSequence, emit, takeBytes, takeAcks, work, engineWork, h]
  all_goals omega

/-- The same enabled step after a scheduling choice is taken. -/
theorem enabled_takeTurns (a : EngineAction) (k : Nat) (s : State) :
    a.enabled (takeTurns k s) = a.enabled s := by
  cases a <;> rfl

/-- Everything a turn can do: rest where nothing goes on, a sequencer step, or an engine step that is enabled; a contested
turn first takes a scheduling choice. -/
theorem blockTurn_went {s t : State} (h : blockTurn s = .went t) :
    s.busy = true ∧ s.fault = none ∧
      ((engineAction s = none ∧ sequencerStep s = some t) ∨
        (∃ a, engineAction s = some a ∧ s.turnAhead 0 ≠ .pause ∧
          ((s.turnAhead 0 = .sequencerFirst ∧ sequencerStep (takeTurns 1 s) = some t) ∨
            ((s.turnAhead 0 = .sequencerFirst → sequencerStep (takeTurns 1 s) = none) ∧
              t = a.perform (takeTurns 1 s))))) := by
  unfold blockTurn at h
  split at h
  · cases h
  rename_i hb
  simp at hb
  refine ⟨hb.1, hb.2, ?_⟩
  split at h
  · rename_i a ha
    refine .inr ⟨a, ha, ?_⟩
    unfold contestedTurn at h
    cases ht : s.turnAhead 0 <;> simp [ht] at h ⊢
    · split at h
      · rename_i hs; cases h; exact .inl hs
      · rename_i hs; cases h; exact .inr ⟨hs, rfl⟩
    · exact h.symm
  · rename_i ha
    split at h
    · rename_i hs; cases h; exact .inl ⟨ha, hs⟩
    · cases h

theorem work_blockTurn_lt {s t : State} (h : blockTurn s = .went t) : work t < work s := by
  obtain ⟨-, -, ⟨-, hs⟩ | ⟨a, ha, -, ⟨-, hs⟩ | ⟨-, rfl⟩⟩⟩ := blockTurn_went h
  · exact work_sequencerStep_lt hs
  · simpa [work_takeTurns] using work_sequencerStep_lt hs
  · simpa [work_takeTurns] using
      work_perform_lt a (takeTurns 1 s) (by rw [enabled_takeTurns]; exact engineAction_enabled ha)

/-- Fuel beyond the work changes nothing. -/
theorem runTurns_fuel (n m : Nat) (s : State) (hn : work s < n) (hm : work s < m) : runTurns n s = runTurns m s := by
  induction n generalizing s m with
  | zero => omega
  | succ n ih =>
    obtain ⟨m, rfl⟩ : ∃ k, m = k + 1 := ⟨m - 1, by omega⟩
    simp only [runTurns]
    cases h : blockTurn s with
    | rested t => rfl
    | went t =>
      have := work_blockTurn_lt h
      exact ih m t (by omega) (by omega)

/-- The run of the block: take a turn, and go on unless it rests. -/
theorem runBlock_eq (s : State) :
    runBlock s = match blockTurn s with
      | .went t => runBlock t
      | .rested t => t := by
  have hb := work_lt_turnBound s
  obtain ⟨n, hn⟩ : ∃ n, turnBound s = n + 1 := ⟨turnBound s - 1, by omega⟩
  rw [runBlock, hn, runTurns]
  cases h : blockTurn s with
  | rested t => rfl
  | went t =>
    have := work_blockTurn_lt h
    exact runTurns_fuel n (turnBound t) t (by omega) (work_lt_turnBound t)

theorem runBlock_of_went {s t : State} (h : blockTurn s = .went t) : runBlock s = runBlock t := by
  rw [runBlock_eq, h]

theorem runBlock_of_rested {s t : State} (h : blockTurn s = .rested t) : runBlock s = t := by
  rw [runBlock_eq, h]

/-- What holds before a run of the block, and is kept by every sequencer step, every enabled engine step and the taking
of a scheduling choice, holds after it. -/
theorem runBlock_induction {P : State → Prop} (s : State) (h0 : P s)
    (hseq : ∀ s t, P s → sequencerStep s = some t → P t)
    (heng : ∀ s a, P s → s.busy = true → s.fault = none → engineAction s = some a → P (a.perform (takeTurns 1 s)))
    (hturn : ∀ s, P s → P (takeTurns 1 s)) : P (runBlock s) := by
  suffices h : ∀ n s, work s < n → P s → P (runBlock s) from h _ s (Nat.lt_succ_self _) h0
  intro n
  induction n with
  | zero => intro s h; omega
  | succ n ih =>
    intro s hn hs
    rw [runBlock_eq]
    cases h : blockTurn s with
    | went t =>
      have hw := work_blockTurn_lt h
      refine ih t (by omega) ?_
      obtain ⟨hb, hf, ⟨-, h'⟩ | ⟨a, ha, -, ⟨-, h'⟩ | ⟨-, rfl⟩⟩⟩ := blockTurn_went h
      · exact hseq s t hs h'
      · exact hseq _ t (hturn s hs) h'
      · exact heng s a hs hb hf ha
    | rested t =>
      have : t = s ∨ t = takeTurns 1 s := by
        unfold blockTurn at h
        split at h
        · cases h; exact .inl rfl
        split at h
        · unfold contestedTurn at h
          cases ht : s.turnAhead 0 <;> simp [ht] at h
          · split at h <;> cases h
          · exact .inr h.symm
        · split at h <;> cases h
          exact .inl rfl
      rcases this with rfl | rfl
      · exact hs
      · exact hturn s hs

end Sys2Proof.Machine
end

