-- ==== Sys2Proof/Laws/Complete.lean ====
section
/-! SUPPORT. A micro-op from its issue to its last post under a schedule without pauses, and a micro-program as the fold
of its micro-ops. -/

namespace Sys2Proof.Machine


/-- The block stands between two micro-ops, with nothing in flight. -/
structure AtIssue (s : State) : Prop where
  busy : s.busy = true
  fault : s.fault = none
  wst : s.wst = .none
  quiet : Quiescent s
  init : s.init = true
  master : s.master = true

theorem engineAction_quiet {s : State} (h : Quiescent s) : engineAction s = none := by
  obtain ⟨h1, h2, h3, h4, h5, h6, h7, h8⟩ := h
  simp [engineAction, EngineAction.enabled, *]

theorem runBlock_issue {s : State} (hb : s.busy = true) (hf : s.fault = none) (hw : s.wst = .none) (hq : Quiescent s)
    {op : MicroOp} (hop : s.mp[s.seq]? = some op) :
    runBlock s = runBlock (issue op s.seq { s with seq := s.seq + 1 }) := by
  apply runBlock_of_went
  simp [blockTurn, hb, hf, engineAction_quiet hq, sequencerStep, hw, hop]

theorem runBlock_end {s : State} (h : AtIssue s) (hop : s.mp[s.seq]? = none) :
    runBlock s = endCommand s := by
  rw [runBlock_of_went (t := endCommand s)]
  · apply runBlock_of_rested; simp [blockTurn, endCommand]
  · simp [blockTurn, h.busy, h.fault, engineAction_quiet h.quiet, sequencerStep, h.wst, hop]

theorem runBlock_fault {s : State} {r} (h : s.fault = some r) : runBlock s = s := by
  apply runBlock_of_rested; simp [blockTurn, h]

theorem sequencerStep_held {s : State} (hw : s.wst ≠ .none) (hc : s.cond s.wst = false) : sequencerStep s = none := by
  simp [sequencerStep, hw, hc]

theorem runBlock_engine {s : State} (hb : s.busy = true) (hf : s.fault = none) {a : EngineAction}
    (ha : engineAction s = some a) (hw : s.wst ≠ .none) (hc : s.cond s.wst = false) (ht : s.turnAhead 0 ≠ .pause) :
    runBlock s = runBlock (a.perform (takeTurns 1 s)) := by
  have : sequencerStep (takeTurns 1 s) = none := by
    refine sequencerStep_held hw ?_
    rw [← hc]
    rfl
  apply runBlock_of_went
  cases h : s.turnAhead 0 <;> simp_all [blockTurn, contestedTurn]

theorem runBlock_pause {s : State} (hb : s.busy = true) (hf : s.fault = none) {a : EngineAction}
    (ha : engineAction s = some a) (ht : s.turnAhead 0 = .pause) :
    runBlock s = takeTurns 1 s := by
  apply runBlock_of_rested
  simp_all [blockTurn, contestedTurn]

theorem runBlock_post {s : State} (hb : s.busy = true) (hf : s.fault = none)
    (ha : engineAction s = none) (hw : s.wst ≠ .none) (hc : s.cond s.wst = true) :
    runBlock s = runBlock (post s.wst s) := by
  apply runBlock_of_went
  simp [blockTurn, ha, hb, hf, sequencerStep, hw, hc]

/-- A micro-op that passes its checks issues with its effect. -/
theorem issue_effect {op : MicroOp} {s : State} (n : Nat) (hi : s.init = true) (hop : op ≠ .uInit)
    (hp : op.acceptedIn s.phase = true) : issue op n s = op.effect s := by
  have : op.check s = none := by cases op <;> simp_all [MicroOp.check]
  simp [issue, this]

theorem runBlock_effect {s : State} (h : AtIssue s) {op : MicroOp} (hop : s.mp[s.seq]? = some op) (hne : op ≠ .uInit)
    (hp : op.acceptedIn s.phase = true) : runBlock s = runBlock (op.effect { s with seq := s.seq + 1 }) := by
  rw [runBlock_issue h.busy h.fault h.wst h.quiet hop, issue_effect _ (by exact h.init) hne (by exact hp)]

/-- One micro-op that arms the engine action `a`, from its issue to its post. -/
theorem runBlock_arm {s : State} (h : AtIssue s) {op : MicroOp} (hop : s.mp[s.seq]? = some op) (hne : op ≠ .uInit)
    (hp : op.acceptedIn s.phase = true) (ht : s.turnAhead 0 ≠ .pause) (a : EngineAction) (s1 s2 : State)
    (h1 : op.effect { s with seq := s.seq + 1 } = s1) (h2 : a.perform (takeTurns 1 s1) = s2)
    (hs1 : s1.busy = true ∧ s1.fault = none ∧ s1.wst ≠ .none ∧ s1.env = s.env)
    (hs2 : s2.busy = true ∧ s2.fault = none ∧ s2.wst ≠ .none)
    (ha1 : engineAction s1 = some a) (hc1 : s1.cond s1.wst = false)
    (ha2 : engineAction s2 = none) (hc2 : s2.cond s2.wst = true) : runBlock s = runBlock (post s2.wst s2) := by
  rw [runBlock_effect h hop hne hp, h1, runBlock_engine hs1.1 hs1.2.1 ha1 hs1.2.2.1 hc1 (by rw [State.turnAhead, hs1.2.2.2]; exact ht),
    h2, runBlock_post hs2.1 hs2.2.1 ha2 hs2.2.2 hc2]

/-- The scheduling choices that a byte's transmission takes: where the sequencer goes first after the shift, the
acknowledge clock is a choice of its own. -/
def sendTurns (s : State) : Nat := if s.turnAhead 1 = .sequencerFirst then 3 else 2

/-- The state after the whole of a micro-op (issue, engine steps, posts) under a schedule without pauses. -/
def opDone (op : MicroOp) (s : State) : State :=
  match op with
  | .uInit => issueInit { s with seq := s.seq + 1 }
  | .uStart => { takeTurns 1 (emit .start s) with seq := s.seq + 1, phase := .addr }
  | .uRestart => { takeTurns 1 (emit .restart s) with seq := s.seq + 1, phase := .addr }
  | .uStop => { takeTurns 1 (emit .stop s) with seq := s.seq + 1, phase := .idle }
  | .uAck => { takeTurns 1 (emit .mack s) with seq := s.seq + 1, ackdt := 0, phase := .rxr }
  | .uNack => { takeTurns 1 (emit .mnack s) with seq := s.seq + 1, ackdt := 1, phase := .rxend }
  | .uIdle => { s with seq := s.seq + 1 }
  | .uSend b =>
    { takeTurns (sendTurns s) (takeAcks 1 (emit (.tx b (s.ackAhead 0)) s)) with
      seq := s.seq + 1, buf := some b, ackstat := s.ackAhead 0, phase := phaseAfterSend b s.phase }
  | .uRead =>
    { takeTurns 1 (takeBytes 1 (emit (.rx (s.byteAhead 0)) s)) with
      seq := s.seq + 1, buf := some (s.byteAhead 0), rb := some (s.byteAhead 0),
      res := some (zext16 (s.byteAhead 0)), phase := .rxb }
  | .uDelay k => { emit (.delay k) s with seq := s.seq + 1 }
  | .uMovLo => { s with seq := s.seq + 1, lo := s.rb }
  | .uMovHi => { s with seq := s.seq + 1, hi := s.rb }
  | .uCompose => { s with seq := s.seq + 1, res := composeRegs s.hi s.lo }
  | .uStch c => { s with seq := s.seq + 1, ch := s.ch.set s.res c }

/-- A micro-op that takes one engine step, from its issue to its post, ends as `opDone` says. -/
theorem runBlock_one {s : State} (h : AtIssue s) {op : MicroOp} (hop : s.mp[s.seq]? = some op)
    (hp : op.acceptedIn s.phase = true) (ht : s.turnAhead 0 ≠ .pause) {a : EngineAction}
    (ha : (op = .uStart ∧ a = .start) ∨ (op = .uRestart ∧ a = .restart) ∨ (op = .uStop ∧ a = .stop) ∨
      (op = .uAck ∧ a = .ackSequence) ∨ (op = .uNack ∧ a = .ackSequence) ∨ (op = .uRead ∧ a = .receive)) :
    runBlock s = runBlock (opDone op s) := by
  obtain ⟨hb, hf, hw, ⟨h1, h2, h3, h4, h5, h6, h7, h8⟩, hi, hm⟩ := id h
  simp only [State.master, Bool.and_eq_true, beq_iff_eq] at hm
  have hne : op ≠ .uInit := by rintro rfl; simp at ha
  rw [runBlock_arm h hop hne hp ht a _ _ rfl rfl]
  · congr 1
    rcases ha with ⟨rfl, rfl⟩ | ⟨rfl, rfl⟩ | ⟨rfl, rfl⟩ | ⟨rfl, rfl⟩ | ⟨rfl, rfl⟩ | ⟨rfl, rfl⟩ <;>
      simp [EngineAction.perform, MicroOp.effect, issueStart, issueRestart, issueStop, issueAck, issueNack, issueRead,
        engineStart, engineRestart, engineStop, engineAckSequence, engineReceive, post, takeTurns, takeBytes, emit,
        opDone, State.byteAhead, State.master, bitAck, bitNack, *]
  all_goals
    rcases ha with ⟨rfl, rfl⟩ | ⟨rfl, rfl⟩ | ⟨rfl, rfl⟩ | ⟨rfl, rfl⟩ | ⟨rfl, rfl⟩ | ⟨rfl, rfl⟩ <;>
      simp [EngineAction.perform, MicroOp.effect, issueStart, issueRestart, issueStop, issueAck, issueNack, issueRead,
        engineStart, engineRestart, engineStop, engineAckSequence, engineReceive, emit, takeTurns, takeBytes,
        engineAction, EngineAction.enabled, State.cond, State.master, *]

theorem turnAhead_takeTurns (s : State) (k j : Nat) : (takeTurns k s).turnAhead j = s.turnAhead (k + j) := by
  simp [takeTurns, State.turnAhead, Supply.take, Supply.look, List.getElem?_drop, Nat.add_assoc]

theorem ackAhead_takeAcks (s : State) (k j : Nat) : (takeAcks k s).ackAhead j = s.ackAhead (k + j) := by
  simp [takeAcks, State.ackAhead, Supply.take, Supply.look, List.getElem?_drop, Nat.add_assoc]

theorem byteAhead_takeBytes (s : State) (k j : Nat) : (takeBytes k s).byteAhead j = s.byteAhead (k + j) := by
  simp [takeBytes, State.byteAhead, Supply.take, Supply.look, List.getElem?_drop, Nat.add_assoc]

theorem take_take {α : Type} (q : Supply α) (k j : Nat) : (q.take k).take j = q.take (k + j) := by
  simp [Supply.take, List.drop_drop, Nat.add_assoc]

theorem runBlock_uSend {s : State} (h : AtIssue s) {b : Byte} (hop : s.mp[s.seq]? = some (.uSend b))
    (hp : (MicroOp.uSend b).acceptedIn s.phase = true) (ht : ∀ k < 3, s.turnAhead k ≠ .pause) :
    runBlock s = runBlock (opDone (.uSend b) s) := by
  obtain ⟨hb, hf, hw, ⟨h1, h2, h3, h4, h5, h6, h7, h8⟩, hi, hm⟩ := id h
  simp only [State.master, Bool.and_eq_true, beq_iff_eq] at hm
  have t0 := ht 0 (by omega)
  have t1 := ht 1 (by omega)
  have t2 := ht 2 (by omega)
  rw [runBlock_effect h hop (by simp) hp]
  have e1 : MicroOp.effect (.uSend b) { s with seq := s.seq + 1 } =
      { s with seq := s.seq + 1, buf := some b, bf := true, tip := true, phase := phaseAfterSend b s.phase, wst := .wBf0 } := by
    simp [MicroOp.effect, issueSend, writeBuf, State.collides, State.conditionArmed, *]
  rw [e1, runBlock_engine (a := .shift) (by exact hb) (by exact hf)
    (by simp [engineAction, EngineAction.enabled, State.master, *]) (by simp) (by simp [State.cond]) (by exact t0)]
  let s2 : State := { takeTurns 1 s with seq := s.seq + 1, buf := some b, tip := true, phase := phaseAfterSend b s.phase, wst := .wBf0 }
  have e2 : EngineAction.perform .shift (takeTurns 1 { s with seq := s.seq + 1, buf := some b, bf := true, tip := true, phase := phaseAfterSend b s.phase, wst := .wBf0 }) = s2 := by
    simp [EngineAction.perform, engineShift, takeTurns, s2, h7]
  rw [e2]
  have ha2 : engineAction s2 = some .ackClock := by
    simp [engineAction, EngineAction.enabled, State.master, s2, takeTurns, *]
  have ht2 : s2.turnAhead 0 = s.turnAhead 1 := turnAhead_takeTurns s 1 0
  cases ht1 : s.turnAhead 1 with
  | pause => exact absurd ht1 t1
  | engineFirst =>
    rw [runBlock_of_went (t := engineAckClock (takeTurns 1 s2))
      (by simp only [blockTurn, ha2, contestedTurn, ht2, ht1]; simp [s2, takeTurns, hb, hf, EngineAction.perform])]
    rw [runBlock_post (by simpa [s2, engineAckClock, emit, takeAcks, takeTurns] using hb) (by simpa [s2, engineAckClock, emit, takeAcks, takeTurns] using hf)
      (by simp [engineAction, EngineAction.enabled, engineAckClock, emit, takeAcks, takeTurns, s2, *]) (by simp [engineAckClock, emit, takeAcks, takeTurns, s2])
      (by simp [engineAckClock, emit, takeAcks, takeTurns, s2, State.cond, *])]
    rw [runBlock_post (by simpa [s2, post, engineAckClock, emit, takeAcks, takeTurns] using hb) (by simpa [s2, post, engineAckClock, emit, takeAcks, takeTurns] using hf)
      (by simp [engineAction, EngineAction.enabled, post, engineAckClock, emit, takeAcks, takeTurns, s2, *]) (by simp [post, engineAckClock, emit, takeAcks, takeTurns, s2])
      (by simp [engineAckClock, emit, takeAcks, takeTurns, s2, State.cond, State.idleCond, State.conditionArmed, post, *])]
    congr 1
    simp [opDone, post, engineAckClock, emit, takeAcks, takeTurns, s2, sendTurns, take_take, State.ackAhead, *]
  | sequencerFirst =>
    have hseq : sequencerStep (takeTurns 1 s2) = some { takeTurns 1 s2 with wst := .wIdle } := by
      simp [sequencerStep, takeTurns, s2, State.cond, post, *]
    rw [runBlock_of_went (t := { takeTurns 1 s2 with wst := .wIdle })
      (by simp only [blockTurn, ha2, contestedTurn, ht2, ht1, hseq]; simp [s2, takeTurns, hb, hf])]
    rw [runBlock_engine (a := .ackClock) (by simpa [s2, takeTurns] using hb) (by simpa [s2, takeTurns] using hf)
      (by simp [engineAction, EngineAction.enabled, State.master, s2, takeTurns, *]) (by simp)
      (by simp [State.cond, State.idleCond, s2, takeTurns])
      (by show (takeTurns 1 (takeTurns 1 s)).turnAhead 0 ≠ _
          rw [turnAhead_takeTurns, turnAhead_takeTurns]; exact t2)]
    rw [runBlock_post (by simpa [s2, EngineAction.perform, engineAckClock, emit, takeAcks, takeTurns] using hb) (by simpa [s2, EngineAction.perform, engineAckClock, emit, takeAcks, takeTurns] using hf)
      (by simp [engineAction, EngineAction.enabled, EngineAction.perform, engineAckClock, emit, takeAcks, takeTurns, s2, *]) (by simp [EngineAction.perform, engineAckClock, emit, takeAcks, takeTurns, s2])
      (by simp [EngineAction.perform, engineAckClock, emit, takeAcks, takeTurns, s2, State.cond, State.idleCond, State.conditionArmed, *])]
    congr 1
    simp [opDone, post, EngineAction.perform, engineAckClock, emit, takeAcks, takeTurns, s2, sendTurns, take_take, State.ackAhead, *]

theorem runBlock_uIdle {s : State} (h : AtIssue s) (hop : s.mp[s.seq]? = some .uIdle) :
    runBlock s = runBlock (opDone .uIdle s) := by
  obtain ⟨hb, hf, hw, ⟨h1, h2, h3, h4, h5, h6, h7, h8⟩, hi, hm⟩ := id h
  rw [runBlock_effect h hop (by simp) (by simp [MicroOp.acceptedIn])]
  rw [runBlock_post (by exact hb) (by exact hf) (by simp [engineAction, EngineAction.enabled, MicroOp.effect, issueIdle, *]) (by simp [MicroOp.effect, issueIdle])
   (by simp [State.cond, MicroOp.effect, issueIdle, State.idleCond, State.conditionArmed, *])]
  congr 1
  simp [post, MicroOp.effect, issueIdle, opDone, *]

/-- The most scheduling choices that a micro-op takes. -/
def opTurns : MicroOp → Nat
  | .uStart | .uRestart | .uStop | .uAck | .uNack | .uRead => 1
  | .uSend _ => 3
  | .uInit | .uIdle | .uDelay _ | .uMovLo | .uMovHi | .uCompose | .uStch _ => 0

/-- The most scheduling choices that a list of micro-ops takes. -/
def opsTurns : List MicroOp → Nat
  | [] => 0
  | op :: ops => opTurns op + opsTurns ops

theorem opsTurns_append (xs ys : List MicroOp) : opsTurns (xs ++ ys) = opsTurns xs + opsTurns ys := by
  induction xs with
  | nil => simp [opsTurns]
  | cons x xs ih => simp [opsTurns, ih, Nat.add_assoc]

/-- A micro-op between two others ends as `opDone` says, whatever the order of the agents' steps. -/
theorem runBlock_opDone {s : State} (h : AtIssue s) {op : MicroOp} (hop : s.mp[s.seq]? = some op) (hne : op ≠ .uInit)
    (hp : op.acceptedIn s.phase = true) (ht : Prompt (opTurns op) s) : runBlock s = runBlock (opDone op s) := by
  cases op
  case uInit => simp at hne
  case uStart => exact runBlock_one h hop hp (ht 0 (by simp [opTurns])) (a := .start) (by simp)
  case uRestart => exact runBlock_one h hop hp (ht 0 (by simp [opTurns])) (a := .restart) (by simp)
  case uStop => exact runBlock_one h hop hp (ht 0 (by simp [opTurns])) (a := .stop) (by simp)
  case uAck => exact runBlock_one h hop hp (ht 0 (by simp [opTurns])) (a := .ackSequence) (by simp)
  case uNack => exact runBlock_one h hop hp (ht 0 (by simp [opTurns])) (a := .ackSequence) (by simp)
  case uRead => exact runBlock_one h hop hp (ht 0 (by simp [opTurns])) (a := .receive) (by simp)
  case uSend b => exact runBlock_uSend h hop hp ht
  case uIdle => exact runBlock_uIdle h hop
  all_goals exact runBlock_effect h hop hne hp

theorem prompt_takeTurns {s : State} {k n m : Nat} (h : Prompt (n + m) s) (hk : k ≤ n) : Prompt m (takeTurns k s) :=
  fun j hj => by rw [turnAhead_takeTurns]; exact h _ (by omega)

theorem opDone_turns (op : MicroOp) (s : State) : ∃ k, k ≤ opTurns op ∧
    (opDone op s).env.turns = s.env.turns.take k := by
  have h0 : s.env.turns = s.env.turns.take 0 := by simp [Supply.take]
  cases op
  case uSend b => exact ⟨sendTurns s, by simp only [sendTurns, opTurns]; split <;> simp, rfl⟩
  all_goals first | exact ⟨1, by simp [opTurns], rfl⟩ | exact ⟨0, by simp [opTurns], h0⟩

theorem opDone_prompt {s : State} {m : Nat} (op : MicroOp) (h : Prompt (opTurns op + m) s) : Prompt m (opDone op s) := by
  obtain ⟨k, hk, he⟩ := opDone_turns op s
  intro j hj
  have := prompt_takeTurns h hk j hj
  simpa [State.turnAhead, takeTurns, he] using this

theorem opDone_frame (op : MicroOp) (s : State) : (opDone op s).mp = s.mp ∧ (opDone op s).seq = s.seq + 1 := by
  cases op <;> exact ⟨rfl, rfl⟩

/-- A whole micro-op other than `uINIT` leaves every flag, hold and control field as it was. -/
theorem opDone_flags {op : MicroOp} (s : State) (hne : op ≠ .uInit) :
    (opDone op s).sen = s.sen ∧ (opDone op s).rsen = s.rsen ∧ (opDone op s).pen = s.pen ∧
      (opDone op s).rcen = s.rcen ∧ (opDone op s).acken = s.acken ∧ (opDone op s).tip = s.tip ∧
      (opDone op s).bf = s.bf ∧ (opDone op s).wcol = s.wcol := by
  cases op <;> simp [opDone, emit, takeTurns, takeAcks, takeBytes] at hne ⊢

theorem opDone_control {op : MicroOp} (s : State) (hne : op ≠ .uInit) :
    (opDone op s).busy = s.busy ∧ (opDone op s).fault = s.fault ∧ (opDone op s).wst = s.wst ∧
      (opDone op s).init = s.init ∧ (opDone op s).en = s.en ∧ (opDone op s).mode = s.mode ∧
      (opDone op s).phase = op.phaseAfter s.phase := by
  cases op <;> simp [opDone, emit, takeTurns, takeAcks, takeBytes, MicroOp.phaseAfter] at hne ⊢

theorem opDone_atIssue {s : State} {op : MicroOp} (h : AtIssue s) (hne : op ≠ .uInit) :
    AtIssue (opDone op s) ∧ (opDone op s).phase = op.phaseAfter s.phase := by
  obtain ⟨hb, hf, hw, hq, hi, hm⟩ := h
  obtain ⟨f1, f2, f3, f4, f5, f6, f7, f8⟩ := opDone_flags s hne
  obtain ⟨c1, c2, c3, c4, c5, c6, c7⟩ := opDone_control s hne
  exact ⟨⟨c1.trans hb, c2.trans hf, c3.trans hw, by simpa [Quiescent, f1, f2, f3, f4, f5, f6, f7, f8] using hq,
    c4.trans hi, by simpa [State.master, c5, c6] using hm⟩, c7⟩

/-- A micro-program, or the rest of one, under a schedule without pauses: each micro-op in its turn, and then the command
is complete. -/
theorem runBlock_fold (ops : List MicroOp) {s : State} (h : AtIssue s) (ht : Prompt (opsTurns ops) s) (hops : s.mp.drop s.seq = ops)
    (hw : phaseWalk ops s.phase ≠ none) : runBlock s = endCommand (ops.foldl (fun s op => opDone op s) s) := by
  induction ops generalizing s with
  | nil =>
    refine runBlock_end h ?_
    simpa using hops
  | cons op ops ih =>
    have hop : s.mp[s.seq]? = some op := by
      have := congrArg List.head? hops
      simpa [List.head?_drop] using this
    simp only [phaseWalk] at hw
    split at hw
    · rename_i hok
      obtain ⟨h', hph⟩ := opDone_atIssue h hok.1
      rw [opsTurns] at ht
      rw [runBlock_opDone h hop hok.1 hok.2 (fun k hk => ht k (by omega)), List.foldl_cons]
      refine ih h' (opDone_prompt op ht) ?_ (by rw [hph]; exact hw)
      rw [(opDone_frame op s).1, (opDone_frame op s).2, ← List.drop_drop, hops]; rfl
    · simp at hw

end Sys2Proof.Machine
end

