-- ==== Sys2Proof/Laws/Invariant.lean ====
section
/-! SUPPORT. The invariant `BlockInv` through the parts of a step: the beginning of a command, a sequencer step, an engine
step. -/

namespace Sys2Proof.Machine

/-- A phase walk goes on after an accepted first part. -/
theorem phaseWalk_append (xs ys : List MicroOp) (ph ph' : Phase) (h : phaseWalk xs ph = some ph') :
    phaseWalk (xs ++ ys) ph = phaseWalk ys ph' := by
  induction xs generalizing ph with
  | nil => simp [phaseWalk] at h; simp [h]
  | cons x xs ih =>
    simp only [phaseWalk, List.cons_append] at h ⊢
    split at h
    · rename_i hx; rw [if_pos hx]; exact ih _ h
    · cases h

@[simp] theorem directionOf_addrW (p : Params) : directionOf (addrW p) = .write := by
  simp [directionOf, addrW, addrByte, Direction.bit]

@[simp] theorem directionOf_addrR (p : Params) : directionOf (addrR p) = .read := by
  simp [directionOf, addrR, addrByte, Direction.bit]

theorem phaseWalk_writeReg (p : Params) (r v : Byte) : phaseWalk (expandWriteReg p r v) .idle = some .idle := by
  simp [expandWriteReg, phaseWalk, MicroOp.acceptedIn, MicroOp.phaseAfter, phaseAfterSend, phaseOfDirection]

theorem phaseWalk_readReg (p : Params) (r : Byte) : phaseWalk (expandReadReg p r) .idle = some .idle := by
  simp [expandReadReg, phaseWalk, MicroOp.acceptedIn, MicroOp.phaseAfter, phaseAfterSend, phaseOfDirection]

theorem phaseWalk_read16 (p : Params) (r : Byte) : phaseWalk (expandRead16 p r) .idle = some .idle := by
  simp only [expandRead16, List.append_assoc]
  rw [phaseWalk_append _ _ _ _ (phaseWalk_readReg p r)]
  rw [phaseWalk_append [.uMovLo] _ .idle .idle (by rfl)]
  rw [phaseWalk_append _ _ _ _ (phaseWalk_readReg p _)]
  rfl

theorem phaseWalk_channel (p : Params) (c : Channel) : phaseWalk (expandChannel p c) .idle = some .idle := by
  rw [expandChannel, phaseWalk_append _ _ _ _ (phaseWalk_read16 p _)]
  rfl

theorem phaseWalk_readChannels (p : Params) : phaseWalk (expandReadChannels p) .idle = some .idle := by
  simp only [expandReadChannels, List.append_assoc]
  rw [phaseWalk_append _ _ _ _ (phaseWalk_channel p _), phaseWalk_append _ _ _ _ (phaseWalk_channel p _),
    phaseWalk_append _ _ _ _ (phaseWalk_channel p _), phaseWalk_channel]

theorem phaseWalk_enable (p : Params) : phaseWalk (expandEnable p) .idle = some .idle := by
  simp only [expandEnable, List.append_assoc]
  rw [phaseWalk_append _ _ _ _ (phaseWalk_writeReg p _ _), phaseWalk_append [.uDelay .power] _ .idle .idle (by rfl),
    phaseWalk_append _ _ _ _ (phaseWalk_writeReg p _ _), phaseWalk_append _ _ _ _ (phaseWalk_writeReg p _ _),
    phaseWalk_writeReg]

/-- Every micro-program's rest is accepted once its first micro-op is (R183), and a sensor command's ends idle (R158). -/
theorem phaseWalk_expand_tail (p : Params) (i : Instr) (op : MicroOp) (ops : List MicroOp) (ph : Phase)
    (h : expand p i = op :: ops) (hop : op.acceptedIn ph = true) :
    ∃ ph', phaseWalk ops (op.phaseAfter ph) = some ph' ∧ (isSensor i = true → ph' = .idle) := by
  have key : ∀ l, phaseWalk l .idle = some .idle → l = op :: ops → op = .uStart →
      ∃ ph', phaseWalk ops (op.phaseAfter ph) = some ph' ∧ (isSensor i = true → ph' = .idle) := by
    rintro l hl rfl rfl
    simp [MicroOp.acceptedIn] at hop
    subst hop
    simp [phaseWalk, MicroOp.acceptedIn] at hl
    exact ⟨_, hl, fun _ => rfl⟩
  cases i <;> simp only [expand] at h
  case writeReg => exact key _ (phaseWalk_writeReg p _ _) h (by simp [expandWriteReg] at h; exact h.1.symm)
  case readReg => exact key _ (phaseWalk_readReg p _) h (by simp [expandReadReg] at h; exact h.1.symm)
  case read16 => exact key _ (phaseWalk_read16 p _) h (by simp [expandRead16, expandReadReg] at h; exact h.1.symm)
  case readChannels =>
    exact key _ (phaseWalk_readChannels p) h
      (by simp [expandReadChannels, expandChannel, expandRead16, expandReadReg] at h; exact h.1.symm)
  case enable => exact key _ (phaseWalk_enable p) h (by simp [expandEnable, expandWriteReg] at h; exact h.1.symm)
  case disable =>
    exact key _ (phaseWalk_writeReg p _ _) h (by simp [expandDisable, expandWriteReg] at h; exact h.1.symm)
  all_goals
    simp at h
    obtain ⟨-, rfl⟩ := h
    exact ⟨_, rfl, by simp [isSensor]⟩

/-- A micro-program has a first micro-op, and it is a transport micro-op. -/
theorem expand_first (p : Params) (i : Instr) : ∃ op ops, expand p i = op :: ops ∧ op.isTransport = true := by
  cases i <;> exact ⟨_, _, rfl, rfl⟩

/-- The master flag follows from `init` (R33). -/
theorem BlockInv.master {s : State} (h : BlockInv s) (hi : s.init = true) : s.master = true := by
  have := h.configured
  simp [Configured, hi] at this
  simp [State.master, this]

/-- An issue without a fault has passed the checks of R120. -/
theorem check_none {op : MicroOp} {s : State} (h : op.check s = none) :
    op.acceptedIn s.phase = true ∧ (op.isTransport = true → op ≠ .uInit → s.init = true) ∧
      (op = .uInit → s.init = false) := by
  cases op <;> simp [MicroOp.check, MicroOp.isTransport, MicroOp.acceptedIn] at h ⊢ <;> grind

/-- A hold's post keeps the invariant. -/
theorem post_inv {s : State} (h : BlockInv s) (hb : s.busy = true) (hf : s.fault = none) (hw : s.wst ≠ .none)
    (hc : s.cond s.wst = true) : BlockInv (post s.wst s) := by
  obtain ⟨flags, conf, hi, hbz, fu, snd, ptr, idx, run, site⟩ := h
  have hi' := hi hw
  have hb' := hbz hw
  rcases s with
    ⟨res, ch, rb, lo, hi, buf, cp, busy, cur, mp, seq, wst, sen, rsen, pen, rcen, acken, bf, tip, wcol, ackstat, ackdt,
      phase, en, mode, smp, brg, scl, sda, init, fault, trace, env⟩
  simp only at hw hb hf hi' hb' run
  subst hb hf hi'
  obtain ⟨i, rfl, rfl, acc⟩ := run rfl
  cases wst <;>
    simp [FlagsMatchHold, Quiescent, State.cond, State.idleCond, State.conditionArmed, Configured] at flags hc conf <;>
    constructor <;> simp_all [post, FlagsMatchHold, Quiescent, Configured]

theorem takeTurns_inv {s : State} (h : BlockInv s) (k : Nat) : BlockInv (takeTurns k s) := by
  obtain ⟨flags, conf, hi, hbz, fu, snd, ptr, idx, run, site⟩ := h
  exact ⟨flags, conf, hi, hbz, fu, snd, ptr, idx, run, site⟩

/-- What the sequencer is held on says which engine step can be enabled (R70). -/
theorem enabled_hold {s : State} {a : EngineAction} (flags : FlagsMatchHold s) (ha : a.enabled s = true) :
    (s.wst = .wSen ∧ a = .start) ∨ (s.wst = .wRsen ∧ a = .restart) ∨ (s.wst = .wPen ∧ a = .stop) ∨
      (s.wst = .wAcken ∧ a = .ackSequence) ∨ (s.wst = .wBf0 ∧ a = .shift ∧ s.bf = true) ∨
      (s.wst = .wBf0 ∧ a = .ackClock ∧ s.bf = false) ∨ (s.wst = .wIdle ∧ a = .ackClock) ∨
      (s.wst = .wBf1 ∧ a = .receive) := by
  cases hw : s.wst <;> simp [FlagsMatchHold, hw, Quiescent] at flags <;> cases a <;>
    simp_all [EngineAction.enabled]

/-- An enabled engine step keeps the invariant. -/
theorem perform_inv {s : State} {a : EngineAction} (h : BlockInv s) (hb : s.busy = true) (hf : s.fault = none)
    (ha : a.enabled s = true) : BlockInv (a.perform s) := by
  have hhold := enabled_hold h.flags ha
  obtain ⟨flags, conf, hi, hbz, fu, snd, ptr, idx, run, site⟩ := h
  have hi' : s.init = true := by
    apply hi; intro hw; simp [hw] at hhold
  have hb' := hbz (by intro hw; simp [hw] at hhold)
  rcases s with
    ⟨res, ch, rb, lo, hi, buf, cp, busy, cur, mp, seq, wst, sen, rsen, pen, rcen, acken, bf, tip, wcol, ackstat, ackdt,
      phase, en, mode, smp, brg, scl, sda, init, fault, trace, env⟩
  simp only at hb hf hi' hb' run hhold
  subst hb hf hi'
  obtain ⟨i, rfl, rfl, acc⟩ := run rfl
  obtain ⟨rfl, rfl⟩ | ⟨rfl, rfl⟩ | ⟨rfl, rfl⟩ | ⟨rfl, rfl⟩ | ⟨rfl, rfl, rfl⟩ | ⟨rfl, rfl, rfl⟩ | ⟨rfl, rfl⟩ | ⟨rfl, rfl⟩ :=
    hhold <;>
    simp [FlagsMatchHold, Quiescent, Configured] at flags conf <;>
    constructor <;>
    simp_all [EngineAction.perform, engineStart, engineRestart, engineStop, engineReceive, engineShift,
      engineAckClock, engineAckSequence, emit, takeBytes, takeAcks, FlagsMatchHold, Quiescent, Configured]

theorem endCommand_inv {s : State} (h : BlockInv s) (hb : s.busy = true) (hf : s.fault = none) (hw : s.wst = .none) :
    BlockInv (endCommand s) := by
  obtain ⟨flags, conf, hi, hbz, fu, snd, ptr, idx, run, site⟩ := h
  constructor <;> simp_all [endCommand, FlagsMatchHold, Quiescent, Configured]

/-- The next micro-op and the rest of the micro-program. -/
theorem drop_of_next {s : State} {op : MicroOp} (hop : s.mp[s.seq]? = some op) :
    s.seq < s.mp.length ∧ s.mp.drop s.seq = op :: s.mp.drop (s.seq + 1) := by
  have hlt : s.seq < s.mp.length := (List.getElem?_eq_some_iff.mp hop).1
  refine ⟨hlt, ?_⟩
  rw [List.drop_eq_getElem_cons hlt]
  congr 1
  exact (List.getElem?_eq_some_iff.mp hop).2

/-- Only a command's first micro-op can fail its checks (R183). -/
theorem issue_first {s : State} {op : MicroOp} (h : BlockInv s) (hb : s.busy = true) (hf : s.fault = none)
    (hop : s.mp[s.seq]? = some op) (hchk : op.check s ≠ none) : s.seq = 0 := by
  by_contra hne
  obtain ⟨i, -, -, acc⟩ := h.running hb
  obtain ⟨hinit, ph, hwalk, -⟩ := acc hf (by omega)
  rw [(drop_of_next hop).2, phaseWalk] at hwalk
  split at hwalk
  · cases op <;> simp_all [MicroOp.check, MicroOp.isTransport]
  · cases hwalk

/-- What the rest of a micro-program has after an issue that passed its checks. -/
theorem issue_rest {s : State} {op : MicroOp} {i : Instr} (hop : s.mp[s.seq]? = some op) (hchk : op.check s = none)
    (hmp : s.mp = expand s.env.params i)
    (acc : 0 < s.seq → s.init = true ∧ ∃ ph, phaseWalk (s.mp.drop s.seq) s.phase = some ph ∧
      (isSensor i = true → ph = .idle)) :
    ((op = .uInit ∧ s.init = false) ∨ (op ≠ .uInit ∧ s.init = true)) ∧
      ∃ ph, phaseWalk (s.mp.drop (s.seq + 1)) (op.phaseAfter s.phase) = some ph ∧ (isSensor i = true → ph = .idle) := by
  have hdrop := (drop_of_next hop).2
  obtain ⟨hacc, hinit, hinit0⟩ := check_none hchk
  by_cases h0 : s.seq = 0
  · rw [h0, hmp, List.drop_zero] at hdrop
    refine ⟨?_, ?_⟩
    · by_cases ho : op = .uInit
      · exact .inl ⟨ho, hinit0 ho⟩
      · refine .inr ⟨ho, hinit ?_ ho⟩
        obtain ⟨op', ops, he, ht⟩ := expand_first s.env.params i
        rw [he] at hdrop
        cases hdrop
        exact ht
    · rw [h0, hmp]
      exact phaseWalk_expand_tail _ i op _ _ hdrop hacc
  · obtain ⟨hin, ph, hwalk, hph⟩ := acc (by omega)
    rw [hdrop, phaseWalk] at hwalk
    split at hwalk
    · rename_i ho
      exact ⟨.inr ⟨ho.1, hin⟩, ph, hwalk, hph⟩
    · cases hwalk

/-- The issue of a micro-op keeps the invariant. -/
theorem issue_inv {s : State} {op : MicroOp} (h : BlockInv s) (hb : s.busy = true) (hf : s.fault = none)
    (hw : s.wst = .none) (hop : s.mp[s.seq]? = some op) : BlockInv (issue op s.seq { s with seq := s.seq + 1 }) := by
  have hlt := (drop_of_next hop).1
  have hm := h.master
  have hchk' : op.check { s with seq := s.seq + 1 } = op.check s := by cases op <;> rfl
  unfold issue
  rw [hchk']
  cases hchk : op.check s with
  | some code =>
    have h0 := issue_first h hb hf hop (by simp [hchk])
    obtain ⟨flags, conf, hi, hbz, fu, snd, ptr, idx, run, site⟩ := h
    rcases s with
      ⟨res, ch, rb, lo, hi, buf, cp, busy, cur, mp, seq, wst, sen, rsen, pen, rcen, acken, bf, tip, wcol, ackstat, ackdt,
      phase, en, mode, smp, brg, scl, sda, init, fault, trace, env⟩
    simp only at hw hb hf h0 hlt run
    subst hb hf hw h0
    obtain ⟨i, rfl, rfl, -⟩ := run rfl
    constructor <;> simp_all [raiseFault, FlagsMatchHold, Quiescent, Configured]
    all_goals omega
  | none =>
    obtain ⟨i, hcur, hmp, acc⟩ := h.running hb
    obtain ⟨hinits, hwalk⟩ := issue_rest hop hchk hmp (acc hf)
    obtain ⟨flags, conf, hi, hbz, fu, snd, ptr, idx, run, site⟩ := h
    clear run acc hchk hchk' hop
    rcases s with
      ⟨res, ch, rb, lo, hi, buf, cp, busy, cur, mp, seq, wst, sen, rsen, pen, rcen, acken, bf, tip, wcol, ackstat, ackdt,
      phase, en, mode, smp, brg, scl, sda, init, fault, trace, env⟩
    simp only at hw hb hf hlt hinits hcur hmp
    subst hb hf hw hcur hmp
    simp [FlagsMatchHold, Quiescent] at flags
    obtain ⟨rfl, rfl, rfl, rfl, rfl, rfl, rfl, rfl⟩ := flags
    obtain ⟨rfl, rfl⟩ | ⟨hne, rfl⟩ := hinits
    · simp [MicroOp.phaseAfter] at hwalk
      constructor <;> simp_all [MicroOp.effect, issueInit, FlagsMatchHold, Quiescent, Configured]
      all_goals first | omega | exact ⟨i, rfl, rfl, hwalk⟩
    · simp [State.master, Configured] at conf hm ptr
      obtain ⟨rfl, rfl, rfl, rfl, rfl, rfl⟩ := conf
      cases op <;> simp [MicroOp.phaseAfter] at hne hwalk ⊢ <;>
        constructor <;>
        simp [MicroOp.effect, issueStart, issueRestart, issueStop, issueAck, issueNack, issueIdle, issueSend, writeBuf,
          issueRead, issueDelay, issueMovLo, issueMovHi, issueCompose, issueStch, emit, FlagsMatchHold, Quiescent,
          Configured, State.collides, State.conditionArmed, State.master, ptr]
      all_goals first | omega | exact ⟨i, rfl, rfl, hwalk⟩

/-- A sequencer step keeps the invariant. -/
theorem sequencerStep_inv {s t : State} (h : BlockInv s) (hs : sequencerStep s = some t) : BlockInv t := by
  unfold sequencerStep at hs
  split at hs
  · cases hs
  rename_i hb
  simp at hb
  split at hs
  · rename_i hw
    split at hs
    · cases hs; exact post_inv h hb.1 hb.2 hw ‹_›
    · cases hs
  · rename_i hw
    simp at hw
    split at hs
    · cases hs; exact issue_inv h hb.1 hb.2 hw ‹_›
    · cases hs; exact endCommand_inv h hb.1 hb.2 hw

/-- A run of the block keeps the invariant. -/
theorem runBlock_inv {s : State} (h : BlockInv s) : BlockInv (runBlock s) :=
  runBlock_induction s h (fun _ _ h hs => sequencerStep_inv h hs)
    (fun s _ h hb hf ha => perform_inv (takeTurns_inv h 1) hb hf
      (by rw [enabled_takeTurns]; exact engineAction_enabled ha))
    (fun _ h => takeTurns_inv h 1)

/-- The beginning of a command keeps the invariant. -/
theorem beginCommand_inv {s : State} (i : Instr) (h : BlockInv s) (hb : s.busy = false)
    (hcp : s.cp < s.env.program.length) : BlockInv (beginCommand (encode i) (expand s.env.params i) s) := by
  obtain ⟨flags, conf, hi, hbz, fu, snd, ptr, idx, run, site⟩ := h
  have hw : s.wst = .none := by by_contra hw; simp [(hbz hw).1] at hb
  constructor <;> simp_all [beginCommand, FlagsMatchHold, Quiescent, Configured]
  exact ⟨i, rfl, rfl⟩

end Sys2Proof.Machine
end

