-- ==== Sys2Proof/Laws/State.lean ====
section
/-! SUPPORT. What each shared operation leaves in each field of the state, one lemma per field and operation; then the
projections of the supplies. -/

namespace Sys2Proof.Machine

variable (s : State)

/-! ### `emit` -/

@[simp] theorem emit_res (e : Event) : (emit e s).res = s.res := rfl
@[simp] theorem emit_ch (e : Event) : (emit e s).ch = s.ch := rfl
@[simp] theorem emit_rb (e : Event) : (emit e s).rb = s.rb := rfl
@[simp] theorem emit_lo (e : Event) : (emit e s).lo = s.lo := rfl
@[simp] theorem emit_hi (e : Event) : (emit e s).hi = s.hi := rfl
@[simp] theorem emit_buf (e : Event) : (emit e s).buf = s.buf := rfl
@[simp] theorem emit_cp (e : Event) : (emit e s).cp = s.cp := rfl
@[simp] theorem emit_busy (e : Event) : (emit e s).busy = s.busy := rfl
@[simp] theorem emit_cur (e : Event) : (emit e s).cur = s.cur := rfl
@[simp] theorem emit_mp (e : Event) : (emit e s).mp = s.mp := rfl
@[simp] theorem emit_seq (e : Event) : (emit e s).seq = s.seq := rfl
@[simp] theorem emit_wst (e : Event) : (emit e s).wst = s.wst := rfl
@[simp] theorem emit_sen (e : Event) : (emit e s).sen = s.sen := rfl
@[simp] theorem emit_rsen (e : Event) : (emit e s).rsen = s.rsen := rfl
@[simp] theorem emit_pen (e : Event) : (emit e s).pen = s.pen := rfl
@[simp] theorem emit_rcen (e : Event) : (emit e s).rcen = s.rcen := rfl
@[simp] theorem emit_acken (e : Event) : (emit e s).acken = s.acken := rfl
@[simp] theorem emit_bf (e : Event) : (emit e s).bf = s.bf := rfl
@[simp] theorem emit_tip (e : Event) : (emit e s).tip = s.tip := rfl
@[simp] theorem emit_wcol (e : Event) : (emit e s).wcol = s.wcol := rfl
@[simp] theorem emit_ackstat (e : Event) : (emit e s).ackstat = s.ackstat := rfl
@[simp] theorem emit_ackdt (e : Event) : (emit e s).ackdt = s.ackdt := rfl
@[simp] theorem emit_phase (e : Event) : (emit e s).phase = s.phase := rfl
@[simp] theorem emit_en (e : Event) : (emit e s).en = s.en := rfl
@[simp] theorem emit_mode (e : Event) : (emit e s).mode = s.mode := rfl
@[simp] theorem emit_smp (e : Event) : (emit e s).smp = s.smp := rfl
@[simp] theorem emit_brg (e : Event) : (emit e s).brg = s.brg := rfl
@[simp] theorem emit_sclDir (e : Event) : (emit e s).sclDir = s.sclDir := rfl
@[simp] theorem emit_sdaDir (e : Event) : (emit e s).sdaDir = s.sdaDir := rfl
@[simp] theorem emit_init (e : Event) : (emit e s).init = s.init := rfl
@[simp] theorem emit_fault (e : Event) : (emit e s).fault = s.fault := rfl
@[simp] theorem emit_trace (e : Event) : (emit e s).trace = s.trace ++ [e] := rfl
@[simp] theorem emit_env (e : Event) : (emit e s).env = s.env := rfl

/-! ### `takeAcks` -/

@[simp] theorem takeAcks_res (k : Nat) : (takeAcks k s).res = s.res := rfl
@[simp] theorem takeAcks_ch (k : Nat) : (takeAcks k s).ch = s.ch := rfl
@[simp] theorem takeAcks_rb (k : Nat) : (takeAcks k s).rb = s.rb := rfl
@[simp] theorem takeAcks_lo (k : Nat) : (takeAcks k s).lo = s.lo := rfl
@[simp] theorem takeAcks_hi (k : Nat) : (takeAcks k s).hi = s.hi := rfl
@[simp] theorem takeAcks_buf (k : Nat) : (takeAcks k s).buf = s.buf := rfl
@[simp] theorem takeAcks_cp (k : Nat) : (takeAcks k s).cp = s.cp := rfl
@[simp] theorem takeAcks_busy (k : Nat) : (takeAcks k s).busy = s.busy := rfl
@[simp] theorem takeAcks_cur (k : Nat) : (takeAcks k s).cur = s.cur := rfl
@[simp] theorem takeAcks_mp (k : Nat) : (takeAcks k s).mp = s.mp := rfl
@[simp] theorem takeAcks_seq (k : Nat) : (takeAcks k s).seq = s.seq := rfl
@[simp] theorem takeAcks_wst (k : Nat) : (takeAcks k s).wst = s.wst := rfl
@[simp] theorem takeAcks_sen (k : Nat) : (takeAcks k s).sen = s.sen := rfl
@[simp] theorem takeAcks_rsen (k : Nat) : (takeAcks k s).rsen = s.rsen := rfl
@[simp] theorem takeAcks_pen (k : Nat) : (takeAcks k s).pen = s.pen := rfl
@[simp] theorem takeAcks_rcen (k : Nat) : (takeAcks k s).rcen = s.rcen := rfl
@[simp] theorem takeAcks_acken (k : Nat) : (takeAcks k s).acken = s.acken := rfl
@[simp] theorem takeAcks_bf (k : Nat) : (takeAcks k s).bf = s.bf := rfl
@[simp] theorem takeAcks_tip (k : Nat) : (takeAcks k s).tip = s.tip := rfl
@[simp] theorem takeAcks_wcol (k : Nat) : (takeAcks k s).wcol = s.wcol := rfl
@[simp] theorem takeAcks_ackstat (k : Nat) : (takeAcks k s).ackstat = s.ackstat := rfl
@[simp] theorem takeAcks_ackdt (k : Nat) : (takeAcks k s).ackdt = s.ackdt := rfl
@[simp] theorem takeAcks_phase (k : Nat) : (takeAcks k s).phase = s.phase := rfl
@[simp] theorem takeAcks_en (k : Nat) : (takeAcks k s).en = s.en := rfl
@[simp] theorem takeAcks_mode (k : Nat) : (takeAcks k s).mode = s.mode := rfl
@[simp] theorem takeAcks_smp (k : Nat) : (takeAcks k s).smp = s.smp := rfl
@[simp] theorem takeAcks_brg (k : Nat) : (takeAcks k s).brg = s.brg := rfl
@[simp] theorem takeAcks_sclDir (k : Nat) : (takeAcks k s).sclDir = s.sclDir := rfl
@[simp] theorem takeAcks_sdaDir (k : Nat) : (takeAcks k s).sdaDir = s.sdaDir := rfl
@[simp] theorem takeAcks_init (k : Nat) : (takeAcks k s).init = s.init := rfl
@[simp] theorem takeAcks_fault (k : Nat) : (takeAcks k s).fault = s.fault := rfl
@[simp] theorem takeAcks_trace (k : Nat) : (takeAcks k s).trace = s.trace := rfl
@[simp] theorem takeAcks_env_params (k : Nat) : (takeAcks k s).env.params = s.env.params := rfl
@[simp] theorem takeAcks_env_program (k : Nat) : (takeAcks k s).env.program = s.env.program := rfl
@[simp] theorem takeAcks_env_reads (k : Nat) : (takeAcks k s).env.reads = s.env.reads := rfl
@[simp] theorem takeAcks_env_delivered (k : Nat) : (takeAcks k s).env.delivered = s.env.delivered := rfl
@[simp] theorem takeAcks_env_turns (k : Nat) : (takeAcks k s).env.turns = s.env.turns := rfl
@[simp] theorem takeAcks_env_acks (k : Nat) : (takeAcks k s).env.acks = s.env.acks.take k := rfl
@[simp] theorem takeAcks_env_bytes (k : Nat) : (takeAcks k s).env.bytes = s.env.bytes := rfl

/-! ### `takeBytes` -/

@[simp] theorem takeBytes_res (k : Nat) : (takeBytes k s).res = s.res := rfl
@[simp] theorem takeBytes_ch (k : Nat) : (takeBytes k s).ch = s.ch := rfl
@[simp] theorem takeBytes_rb (k : Nat) : (takeBytes k s).rb = s.rb := rfl
@[simp] theorem takeBytes_lo (k : Nat) : (takeBytes k s).lo = s.lo := rfl
@[simp] theorem takeBytes_hi (k : Nat) : (takeBytes k s).hi = s.hi := rfl
@[simp] theorem takeBytes_buf (k : Nat) : (takeBytes k s).buf = s.buf := rfl
@[simp] theorem takeBytes_cp (k : Nat) : (takeBytes k s).cp = s.cp := rfl
@[simp] theorem takeBytes_busy (k : Nat) : (takeBytes k s).busy = s.busy := rfl
@[simp] theorem takeBytes_cur (k : Nat) : (takeBytes k s).cur = s.cur := rfl
@[simp] theorem takeBytes_mp (k : Nat) : (takeBytes k s).mp = s.mp := rfl
@[simp] theorem takeBytes_seq (k : Nat) : (takeBytes k s).seq = s.seq := rfl
@[simp] theorem takeBytes_wst (k : Nat) : (takeBytes k s).wst = s.wst := rfl
@[simp] theorem takeBytes_sen (k : Nat) : (takeBytes k s).sen = s.sen := rfl
@[simp] theorem takeBytes_rsen (k : Nat) : (takeBytes k s).rsen = s.rsen := rfl
@[simp] theorem takeBytes_pen (k : Nat) : (takeBytes k s).pen = s.pen := rfl
@[simp] theorem takeBytes_rcen (k : Nat) : (takeBytes k s).rcen = s.rcen := rfl
@[simp] theorem takeBytes_acken (k : Nat) : (takeBytes k s).acken = s.acken := rfl
@[simp] theorem takeBytes_bf (k : Nat) : (takeBytes k s).bf = s.bf := rfl
@[simp] theorem takeBytes_tip (k : Nat) : (takeBytes k s).tip = s.tip := rfl
@[simp] theorem takeBytes_wcol (k : Nat) : (takeBytes k s).wcol = s.wcol := rfl
@[simp] theorem takeBytes_ackstat (k : Nat) : (takeBytes k s).ackstat = s.ackstat := rfl
@[simp] theorem takeBytes_ackdt (k : Nat) : (takeBytes k s).ackdt = s.ackdt := rfl
@[simp] theorem takeBytes_phase (k : Nat) : (takeBytes k s).phase = s.phase := rfl
@[simp] theorem takeBytes_en (k : Nat) : (takeBytes k s).en = s.en := rfl
@[simp] theorem takeBytes_mode (k : Nat) : (takeBytes k s).mode = s.mode := rfl
@[simp] theorem takeBytes_smp (k : Nat) : (takeBytes k s).smp = s.smp := rfl
@[simp] theorem takeBytes_brg (k : Nat) : (takeBytes k s).brg = s.brg := rfl
@[simp] theorem takeBytes_sclDir (k : Nat) : (takeBytes k s).sclDir = s.sclDir := rfl
@[simp] theorem takeBytes_sdaDir (k : Nat) : (takeBytes k s).sdaDir = s.sdaDir := rfl
@[simp] theorem takeBytes_init (k : Nat) : (takeBytes k s).init = s.init := rfl
@[simp] theorem takeBytes_fault (k : Nat) : (takeBytes k s).fault = s.fault := rfl
@[simp] theorem takeBytes_trace (k : Nat) : (takeBytes k s).trace = s.trace := rfl
@[simp] theorem takeBytes_env_params (k : Nat) : (takeBytes k s).env.params = s.env.params := rfl
@[simp] theorem takeBytes_env_program (k : Nat) : (takeBytes k s).env.program = s.env.program := rfl
@[simp] theorem takeBytes_env_reads (k : Nat) : (takeBytes k s).env.reads = s.env.reads := rfl
@[simp] theorem takeBytes_env_delivered (k : Nat) : (takeBytes k s).env.delivered = s.env.delivered := rfl
@[simp] theorem takeBytes_env_turns (k : Nat) : (takeBytes k s).env.turns = s.env.turns := rfl
@[simp] theorem takeBytes_env_acks (k : Nat) : (takeBytes k s).env.acks = s.env.acks := rfl
@[simp] theorem takeBytes_env_bytes (k : Nat) : (takeBytes k s).env.bytes = s.env.bytes.take k := rfl

/-! ### `takeTurns` -/

@[simp] theorem takeTurns_res (k : Nat) : (takeTurns k s).res = s.res := rfl
@[simp] theorem takeTurns_ch (k : Nat) : (takeTurns k s).ch = s.ch := rfl
@[simp] theorem takeTurns_rb (k : Nat) : (takeTurns k s).rb = s.rb := rfl
@[simp] theorem takeTurns_lo (k : Nat) : (takeTurns k s).lo = s.lo := rfl
@[simp] theorem takeTurns_hi (k : Nat) : (takeTurns k s).hi = s.hi := rfl
@[simp] theorem takeTurns_buf (k : Nat) : (takeTurns k s).buf = s.buf := rfl
@[simp] theorem takeTurns_cp (k : Nat) : (takeTurns k s).cp = s.cp := rfl
@[simp] theorem takeTurns_busy (k : Nat) : (takeTurns k s).busy = s.busy := rfl
@[simp] theorem takeTurns_cur (k : Nat) : (takeTurns k s).cur = s.cur := rfl
@[simp] theorem takeTurns_mp (k : Nat) : (takeTurns k s).mp = s.mp := rfl
@[simp] theorem takeTurns_seq (k : Nat) : (takeTurns k s).seq = s.seq := rfl
@[simp] theorem takeTurns_wst (k : Nat) : (takeTurns k s).wst = s.wst := rfl
@[simp] theorem takeTurns_sen (k : Nat) : (takeTurns k s).sen = s.sen := rfl
@[simp] theorem takeTurns_rsen (k : Nat) : (takeTurns k s).rsen = s.rsen := rfl
@[simp] theorem takeTurns_pen (k : Nat) : (takeTurns k s).pen = s.pen := rfl
@[simp] theorem takeTurns_rcen (k : Nat) : (takeTurns k s).rcen = s.rcen := rfl
@[simp] theorem takeTurns_acken (k : Nat) : (takeTurns k s).acken = s.acken := rfl
@[simp] theorem takeTurns_bf (k : Nat) : (takeTurns k s).bf = s.bf := rfl
@[simp] theorem takeTurns_tip (k : Nat) : (takeTurns k s).tip = s.tip := rfl
@[simp] theorem takeTurns_wcol (k : Nat) : (takeTurns k s).wcol = s.wcol := rfl
@[simp] theorem takeTurns_ackstat (k : Nat) : (takeTurns k s).ackstat = s.ackstat := rfl
@[simp] theorem takeTurns_ackdt (k : Nat) : (takeTurns k s).ackdt = s.ackdt := rfl
@[simp] theorem takeTurns_phase (k : Nat) : (takeTurns k s).phase = s.phase := rfl
@[simp] theorem takeTurns_en (k : Nat) : (takeTurns k s).en = s.en := rfl
@[simp] theorem takeTurns_mode (k : Nat) : (takeTurns k s).mode = s.mode := rfl
@[simp] theorem takeTurns_smp (k : Nat) : (takeTurns k s).smp = s.smp := rfl
@[simp] theorem takeTurns_brg (k : Nat) : (takeTurns k s).brg = s.brg := rfl
@[simp] theorem takeTurns_sclDir (k : Nat) : (takeTurns k s).sclDir = s.sclDir := rfl
@[simp] theorem takeTurns_sdaDir (k : Nat) : (takeTurns k s).sdaDir = s.sdaDir := rfl
@[simp] theorem takeTurns_init (k : Nat) : (takeTurns k s).init = s.init := rfl
@[simp] theorem takeTurns_fault (k : Nat) : (takeTurns k s).fault = s.fault := rfl
@[simp] theorem takeTurns_trace (k : Nat) : (takeTurns k s).trace = s.trace := rfl
@[simp] theorem takeTurns_env_params (k : Nat) : (takeTurns k s).env.params = s.env.params := rfl
@[simp] theorem takeTurns_env_program (k : Nat) : (takeTurns k s).env.program = s.env.program := rfl
@[simp] theorem takeTurns_env_reads (k : Nat) : (takeTurns k s).env.reads = s.env.reads := rfl
@[simp] theorem takeTurns_env_delivered (k : Nat) : (takeTurns k s).env.delivered = s.env.delivered := rfl
@[simp] theorem takeTurns_env_turns (k : Nat) : (takeTurns k s).env.turns = s.env.turns.take k := rfl
@[simp] theorem takeTurns_env_acks (k : Nat) : (takeTurns k s).env.acks = s.env.acks := rfl
@[simp] theorem takeTurns_env_bytes (k : Nat) : (takeTurns k s).env.bytes = s.env.bytes := rfl

/-! ### `raiseFault` -/

section

variable (c : FaultCode) (w : Option Word) (i : FaultSite)

@[simp] theorem raiseFault_res : (raiseFault c w i s).res = s.res := rfl
@[simp] theorem raiseFault_ch : (raiseFault c w i s).ch = s.ch := rfl
@[simp] theorem raiseFault_rb : (raiseFault c w i s).rb = s.rb := rfl
@[simp] theorem raiseFault_lo : (raiseFault c w i s).lo = s.lo := rfl
@[simp] theorem raiseFault_hi : (raiseFault c w i s).hi = s.hi := rfl
@[simp] theorem raiseFault_buf : (raiseFault c w i s).buf = s.buf := rfl
@[simp] theorem raiseFault_cp : (raiseFault c w i s).cp = s.cp := rfl
@[simp] theorem raiseFault_busy : (raiseFault c w i s).busy = s.busy := rfl
@[simp] theorem raiseFault_cur : (raiseFault c w i s).cur = s.cur := rfl
@[simp] theorem raiseFault_mp : (raiseFault c w i s).mp = s.mp := rfl
@[simp] theorem raiseFault_seq : (raiseFault c w i s).seq = s.seq := rfl
@[simp] theorem raiseFault_wst : (raiseFault c w i s).wst = s.wst := rfl
@[simp] theorem raiseFault_sen : (raiseFault c w i s).sen = s.sen := rfl
@[simp] theorem raiseFault_rsen : (raiseFault c w i s).rsen = s.rsen := rfl
@[simp] theorem raiseFault_pen : (raiseFault c w i s).pen = s.pen := rfl
@[simp] theorem raiseFault_rcen : (raiseFault c w i s).rcen = s.rcen := rfl
@[simp] theorem raiseFault_acken : (raiseFault c w i s).acken = s.acken := rfl
@[simp] theorem raiseFault_bf : (raiseFault c w i s).bf = s.bf := rfl
@[simp] theorem raiseFault_tip : (raiseFault c w i s).tip = s.tip := rfl
@[simp] theorem raiseFault_wcol : (raiseFault c w i s).wcol = s.wcol := rfl
@[simp] theorem raiseFault_ackstat : (raiseFault c w i s).ackstat = s.ackstat := rfl
@[simp] theorem raiseFault_ackdt : (raiseFault c w i s).ackdt = s.ackdt := rfl
@[simp] theorem raiseFault_phase : (raiseFault c w i s).phase = s.phase := rfl
@[simp] theorem raiseFault_en : (raiseFault c w i s).en = s.en := rfl
@[simp] theorem raiseFault_mode : (raiseFault c w i s).mode = s.mode := rfl
@[simp] theorem raiseFault_smp : (raiseFault c w i s).smp = s.smp := rfl
@[simp] theorem raiseFault_brg : (raiseFault c w i s).brg = s.brg := rfl
@[simp] theorem raiseFault_sclDir : (raiseFault c w i s).sclDir = s.sclDir := rfl
@[simp] theorem raiseFault_sdaDir : (raiseFault c w i s).sdaDir = s.sdaDir := rfl
@[simp] theorem raiseFault_init : (raiseFault c w i s).init = s.init := rfl
@[simp] theorem raiseFault_fault : (raiseFault c w i s).fault = some ⟨c, w, i, s.phase⟩ := rfl
@[simp] theorem raiseFault_trace : (raiseFault c w i s).trace = s.trace := rfl
@[simp] theorem raiseFault_env : (raiseFault c w i s).env = s.env := rfl

end

/-! ### `beginCommand` -/

@[simp] theorem beginCommand_res (w : Word) (mp : List MicroOp) : (beginCommand w mp s).res = s.res := rfl
@[simp] theorem beginCommand_ch (w : Word) (mp : List MicroOp) : (beginCommand w mp s).ch = s.ch := rfl
@[simp] theorem beginCommand_rb (w : Word) (mp : List MicroOp) : (beginCommand w mp s).rb = s.rb := rfl
@[simp] theorem beginCommand_lo (w : Word) (mp : List MicroOp) : (beginCommand w mp s).lo = s.lo := rfl
@[simp] theorem beginCommand_hi (w : Word) (mp : List MicroOp) : (beginCommand w mp s).hi = s.hi := rfl
@[simp] theorem beginCommand_buf (w : Word) (mp : List MicroOp) : (beginCommand w mp s).buf = s.buf := rfl
@[simp] theorem beginCommand_cp (w : Word) (mp : List MicroOp) : (beginCommand w mp s).cp = s.cp := rfl
@[simp] theorem beginCommand_busy (w : Word) (mp : List MicroOp) : (beginCommand w mp s).busy = true := rfl
@[simp] theorem beginCommand_cur (w : Word) (mp : List MicroOp) : (beginCommand w mp s).cur = some w := rfl
@[simp] theorem beginCommand_mp (w : Word) (mp : List MicroOp) : (beginCommand w mp s).mp = mp := rfl
@[simp] theorem beginCommand_seq (w : Word) (mp : List MicroOp) : (beginCommand w mp s).seq = 0 := rfl
@[simp] theorem beginCommand_wst (w : Word) (mp : List MicroOp) : (beginCommand w mp s).wst = WaitState.none := rfl
@[simp] theorem beginCommand_sen (w : Word) (mp : List MicroOp) : (beginCommand w mp s).sen = s.sen := rfl
@[simp] theorem beginCommand_rsen (w : Word) (mp : List MicroOp) : (beginCommand w mp s).rsen = s.rsen := rfl
@[simp] theorem beginCommand_pen (w : Word) (mp : List MicroOp) : (beginCommand w mp s).pen = s.pen := rfl
@[simp] theorem beginCommand_rcen (w : Word) (mp : List MicroOp) : (beginCommand w mp s).rcen = s.rcen := rfl
@[simp] theorem beginCommand_acken (w : Word) (mp : List MicroOp) : (beginCommand w mp s).acken = s.acken := rfl
@[simp] theorem beginCommand_bf (w : Word) (mp : List MicroOp) : (beginCommand w mp s).bf = s.bf := rfl
@[simp] theorem beginCommand_tip (w : Word) (mp : List MicroOp) : (beginCommand w mp s).tip = s.tip := rfl
@[simp] theorem beginCommand_wcol (w : Word) (mp : List MicroOp) : (beginCommand w mp s).wcol = s.wcol := rfl
@[simp] theorem beginCommand_ackstat (w : Word) (mp : List MicroOp) : (beginCommand w mp s).ackstat = s.ackstat := rfl
@[simp] theorem beginCommand_ackdt (w : Word) (mp : List MicroOp) : (beginCommand w mp s).ackdt = s.ackdt := rfl
@[simp] theorem beginCommand_phase (w : Word) (mp : List MicroOp) : (beginCommand w mp s).phase = s.phase := rfl
@[simp] theorem beginCommand_en (w : Word) (mp : List MicroOp) : (beginCommand w mp s).en = s.en := rfl
@[simp] theorem beginCommand_mode (w : Word) (mp : List MicroOp) : (beginCommand w mp s).mode = s.mode := rfl
@[simp] theorem beginCommand_smp (w : Word) (mp : List MicroOp) : (beginCommand w mp s).smp = s.smp := rfl
@[simp] theorem beginCommand_brg (w : Word) (mp : List MicroOp) : (beginCommand w mp s).brg = s.brg := rfl
@[simp] theorem beginCommand_sclDir (w : Word) (mp : List MicroOp) : (beginCommand w mp s).sclDir = s.sclDir := rfl
@[simp] theorem beginCommand_sdaDir (w : Word) (mp : List MicroOp) : (beginCommand w mp s).sdaDir = s.sdaDir := rfl
@[simp] theorem beginCommand_init (w : Word) (mp : List MicroOp) : (beginCommand w mp s).init = s.init := rfl
@[simp] theorem beginCommand_fault (w : Word) (mp : List MicroOp) : (beginCommand w mp s).fault = s.fault := rfl
@[simp] theorem beginCommand_trace (w : Word) (mp : List MicroOp) : (beginCommand w mp s).trace = s.trace := rfl
@[simp] theorem beginCommand_env (w : Word) (mp : List MicroOp) : (beginCommand w mp s).env = s.env := rfl

/-! ### `endCommand` -/

@[simp] theorem endCommand_res : (endCommand s).res = s.res := rfl
@[simp] theorem endCommand_ch : (endCommand s).ch = s.ch := rfl
@[simp] theorem endCommand_rb : (endCommand s).rb = s.rb := rfl
@[simp] theorem endCommand_lo : (endCommand s).lo = s.lo := rfl
@[simp] theorem endCommand_hi : (endCommand s).hi = s.hi := rfl
@[simp] theorem endCommand_buf : (endCommand s).buf = s.buf := rfl
@[simp] theorem endCommand_cp : (endCommand s).cp = s.cp + 1 := rfl
@[simp] theorem endCommand_busy : (endCommand s).busy = false := rfl
@[simp] theorem endCommand_cur : (endCommand s).cur = s.cur := rfl
@[simp] theorem endCommand_mp : (endCommand s).mp = s.mp := rfl
@[simp] theorem endCommand_seq : (endCommand s).seq = s.seq := rfl
@[simp] theorem endCommand_wst : (endCommand s).wst = s.wst := rfl
@[simp] theorem endCommand_sen : (endCommand s).sen = s.sen := rfl
@[simp] theorem endCommand_rsen : (endCommand s).rsen = s.rsen := rfl
@[simp] theorem endCommand_pen : (endCommand s).pen = s.pen := rfl
@[simp] theorem endCommand_rcen : (endCommand s).rcen = s.rcen := rfl
@[simp] theorem endCommand_acken : (endCommand s).acken = s.acken := rfl
@[simp] theorem endCommand_bf : (endCommand s).bf = s.bf := rfl
@[simp] theorem endCommand_tip : (endCommand s).tip = s.tip := rfl
@[simp] theorem endCommand_wcol : (endCommand s).wcol = s.wcol := rfl
@[simp] theorem endCommand_ackstat : (endCommand s).ackstat = s.ackstat := rfl
@[simp] theorem endCommand_ackdt : (endCommand s).ackdt = s.ackdt := rfl
@[simp] theorem endCommand_phase : (endCommand s).phase = s.phase := rfl
@[simp] theorem endCommand_en : (endCommand s).en = s.en := rfl
@[simp] theorem endCommand_mode : (endCommand s).mode = s.mode := rfl
@[simp] theorem endCommand_smp : (endCommand s).smp = s.smp := rfl
@[simp] theorem endCommand_brg : (endCommand s).brg = s.brg := rfl
@[simp] theorem endCommand_sclDir : (endCommand s).sclDir = s.sclDir := rfl
@[simp] theorem endCommand_sdaDir : (endCommand s).sdaDir = s.sdaDir := rfl
@[simp] theorem endCommand_init : (endCommand s).init = s.init := rfl
@[simp] theorem endCommand_fault : (endCommand s).fault = s.fault := rfl
@[simp] theorem endCommand_trace : (endCommand s).trace = s.trace := rfl
@[simp] theorem endCommand_env : (endCommand s).env = s.env := rfl

end Sys2Proof.Machine
end

