-- ==== Sys2Proof/Laws/Ops.lean ====
section
/-! SUPPORT. For each shared operation, one lemma that says everything it can do: an issue, a post, a sequencer step, an
engine step, a host read, a step of the machine. -/

namespace Sys2Proof.Machine

/-- What no effect of a micro-op changes: the sequencer's own fields, the command pointer and what stands outside the
block. -/
theorem effect_frame (op : MicroOp) (s : State) :
    (op.effect s).cp = s.cp ∧ (op.effect s).busy = s.busy ∧ (op.effect s).cur = s.cur ∧ (op.effect s).mp = s.mp ∧
      (op.effect s).seq = s.seq ∧ (op.effect s).fault = s.fault ∧ (op.effect s).env = s.env ∧
      (op.effect s).rb = s.rb ∧ (op.effect s).ackstat = s.ackstat := by
  cases op <;> try exact ⟨rfl, rfl, rfl, rfl, rfl, rfl, rfl, rfl, rfl⟩
  simp only [MicroOp.effect, issueSend, writeBuf]
  split <;> exact ⟨rfl, rfl, rfl, rfl, rfl, rfl, rfl, rfl, rfl⟩

/-- An effect appends at most one event, and only a settling delay's does. -/
theorem effect_trace (op : MicroOp) (s : State) :
    (op.effect s).trace = s.trace ∨ ∃ k, op = .uDelay k ∧ (op.effect s).trace = s.trace ++ [.delay k] := by
  cases op <;> try exact .inl rfl
  · simp only [MicroOp.effect, issueSend, writeBuf]
    split <;> exact .inl rfl
  · exact .inr ⟨_, rfl, rfl⟩

/-- An issue raises a fault and has no other effect, or has the micro-op's effect (R120, R181). -/
theorem issue_cases (op : MicroOp) (n : Nat) (s : State) :
    (∃ c, op.check s = some c ∧ issue op n s = raiseFault c s.cur (.microOp n) s) ∨
      (op.check s = none ∧ issue op n s = op.effect s) := by
  unfold issue
  cases op.check s <;> simp

/-- What no post changes. -/
theorem post_frame (w : WaitState) (s : State) :
    (post w s).cp = s.cp ∧ (post w s).busy = s.busy ∧ (post w s).cur = s.cur ∧ (post w s).mp = s.mp ∧
      (post w s).seq = s.seq ∧ (post w s).fault = s.fault ∧ (post w s).env = s.env ∧ (post w s).trace = s.trace ∧
      (post w s).phase = s.phase ∧ (post w s).init = s.init := by
  cases w <;> exact ⟨rfl, rfl, rfl, rfl, rfl, rfl, rfl, rfl, rfl, rfl⟩

/-- Control fields of two states agree. -/
def SameControl (t s : State) : Prop :=
  t.en = s.en ∧ t.mode = s.mode ∧ t.smp = s.smp ∧ t.brg = s.brg ∧ t.sclDir = s.sclDir ∧ t.sdaDir = s.sdaDir ∧
    t.init = s.init

/-- Only `uINIT` writes a control field (R31). -/
theorem effect_control {op : MicroOp} (s : State) (h : op ≠ .uInit) : SameControl (op.effect s) s := by
  cases op <;> try exact ⟨rfl, rfl, rfl, rfl, rfl, rfl, rfl⟩
  · exact absurd rfl h
  · simp only [MicroOp.effect, issueSend, writeBuf]
    split <;> exact ⟨rfl, rfl, rfl, rfl, rfl, rfl, rfl⟩

theorem post_control (w : WaitState) (s : State) : SameControl (post w s) s := by
  cases w <;> exact ⟨rfl, rfl, rfl, rfl, rfl, rfl, rfl⟩

/-- Everything a sequencer step can do (R41): end a hold, issue the next micro-op, or complete the command. -/
theorem sequencerStep_cases {s t : State} (h : sequencerStep s = some t) :
    s.busy = true ∧ s.fault = none ∧
      ((s.wst ≠ .none ∧ s.cond s.wst = true ∧ t = post s.wst s) ∨
        (s.wst = .none ∧ ∃ op, s.mp[s.seq]? = some op ∧ t = issue op s.seq { s with seq := s.seq + 1 }) ∨
        (s.wst = .none ∧ s.mp[s.seq]? = none ∧ t = endCommand s)) := by
  unfold sequencerStep at h
  split at h
  · cases h
  rename_i hb
  simp at hb
  refine ⟨hb.1, hb.2, ?_⟩
  split at h
  · rename_i hw
    split at h
    · rename_i hc; exact .inl ⟨hw, hc, (Option.some.inj h).symm⟩
    · cases h
  · rename_i hw
    simp only [ne_eq, not_not] at hw
    cases hop : s.mp[s.seq]? with
    | some op => rw [hop] at h; exact .inr (.inl ⟨hw, op, rfl, (Option.some.inj h).symm⟩)
    | none => rw [hop] at h; exact .inr (.inr ⟨hw, rfl, (Option.some.inj h).symm⟩)

/-- What no engine step changes: the sequencer's fields, the result registers, the phase and the control fields. -/
theorem perform_frame (a : EngineAction) (s : State) :
    (a.perform s).cp = s.cp ∧ (a.perform s).busy = s.busy ∧ (a.perform s).cur = s.cur ∧ (a.perform s).mp = s.mp ∧
      (a.perform s).seq = s.seq ∧ (a.perform s).wst = s.wst ∧ (a.perform s).fault = s.fault ∧
      (a.perform s).phase = s.phase ∧ (a.perform s).init = s.init ∧ (a.perform s).res = s.res ∧
      (a.perform s).ch = s.ch ∧ (a.perform s).rb = s.rb ∧ (a.perform s).master = s.master := by
  cases a <;> exact ⟨rfl, rfl, rfl, rfl, rfl, rfl, rfl, rfl, rfl, rfl, rfl, rfl, rfl⟩

theorem perform_control (a : EngineAction) (s : State) : SameControl (a.perform s) s := by
  cases a <;> exact ⟨rfl, rfl, rfl, rfl, rfl, rfl, rfl⟩

/-- An engine step appends at most one event, and takes no scheduling choice. -/
theorem perform_trace (a : EngineAction) (s : State) :
    (∃ es, (a.perform s).trace = s.trace ++ es ∧ es.length ≤ 1) ∧ (a.perform s).env.turns = s.env.turns ∧
      (a.perform s).env.program = s.env.program ∧ (a.perform s).env.params = s.env.params := by
  cases a <;> first
    | exact ⟨⟨[_], rfl, by simp⟩, rfl, rfl, rfl⟩
    | exact ⟨⟨[], (List.append_nil _).symm, by simp⟩, rfl, rfl, rfl⟩

/-- A host read raises `UNWRITTEN`, or delivers a value (R22, R183). -/
theorem hostRead_cases (r : ResultReg) (s : State) :
    (s.result r = none ∧ hostRead r s = raiseFault .unwritten none (.register r) s) ∨
      ∃ v, s.result r = some v ∧ hostRead r s =
        { s with env := { s.env with reads := s.env.reads.tail, delivered := s.env.delivered ++ [(r, v)] } } := by
  unfold hostRead
  cases h : s.result r <;> simp

/-- Every arm of the dispatch is the issue of its command. -/
theorem exec_eq_issueCommand (i : Instr) (s : State) : exec i s = issueCommand i s := by cases i <;> rfl

/-- Everything a step of the machine can do. -/
theorem step_cases {s t : State} (h : step s = .next t) :
    s.fault = none ∧
      ((s.busy = true ∧ t = runBlock s) ∨
        (s.busy = false ∧
          ((∃ r, dueRead s = some r ∧ t = hostRead r s) ∨
            (dueRead s = none ∧ fetchWord s = none ∧ t = s) ∨
            (∃ w i, dueRead s = none ∧ fetchWord s = some w ∧ decode w = .command i ∧
              t = runBlock (beginCommand (encode i) (expand s.env.params i) s)) ∨
            (∃ w r, dueRead s = none ∧ fetchWord s = some w ∧ decode w = .illegal r ∧ t = raiseIllegal w s)))) := by
  unfold step at h
  cases hf : s.fault with
  | some r => rw [hf] at h; cases h
  | none =>
    rw [hf] at h
    refine ⟨rfl, ?_⟩
    cases hb : s.busy with
    | true => rw [hb] at h; exact .inl ⟨rfl, by simpa using h.symm⟩
    | false =>
      refine .inr ⟨rfl, ?_⟩
      simp only [hb, Bool.false_eq_true, if_false] at h
      cases hd : dueRead s with
      | some r => rw [hd] at h; exact .inl ⟨r, rfl, by simpa using h.symm⟩
      | none =>
        rw [hd] at h
        refine .inr ?_
        cases hw : fetchWord s with
        | none => rw [hw] at h; exact .inl ⟨rfl, rfl, by simpa using h.symm⟩
        | some w =>
          rw [hw] at h
          refine .inr ?_
          cases hc : decode w with
          | command i =>
            simp only [hc, exec_eq_issueCommand, issueCommand] at h
            exact .inl ⟨w, i, rfl, rfl, hc, by simpa using h.symm⟩
          | illegal r =>
            simp only [hc] at h
            exact .inr ⟨w, r, rfl, rfl, hc, by simpa using h.symm⟩

end Sys2Proof.Machine
end

