-- ==== Sys2Proof/Laws/PerInstr.lean ====
section
/-! SUPPORT. Statements about every instruction, one lemma for each constructor. -/

namespace Sys2Proof.Laws.Legal

/-- The instruction is well formed, and the decoder takes its three fields for it (30_encoding.md R97 to R99). -/
def Statement (i : Instr) : Prop := i.wellFormed = true ∧ decodeFields i.fields = .command i

theorem init : Statement .init := ⟨rfl, rfl⟩
theorem start : Statement .start := ⟨rfl, rfl⟩
theorem restart : Statement .restart := ⟨rfl, rfl⟩
theorem stop : Statement .stop := ⟨rfl, rfl⟩
theorem ack : Statement .ack := ⟨rfl, rfl⟩
theorem nack : Statement .nack := ⟨rfl, rfl⟩
theorem idle : Statement .idle := ⟨rfl, rfl⟩
theorem send (b : Byte) : Statement (.send b) := ⟨rfl, rfl⟩
theorem read : Statement .read := ⟨rfl, rfl⟩
theorem writeReg (r v : Byte) : Statement (.writeReg r v) := ⟨rfl, rfl⟩
theorem readReg (r : Byte) : Statement (.readReg r) := ⟨rfl, rfl⟩
theorem read16 (r : Byte) : Statement (.read16 r) := ⟨rfl, rfl⟩
theorem readChannels : Statement .readChannels := ⟨rfl, rfl⟩
theorem enable : Statement .enable := ⟨rfl, rfl⟩
theorem disable : Statement .disable := ⟨rfl, rfl⟩

end Sys2Proof.Laws.Legal
end

