-- ==== Sys2Proof/Machine/Assembler.lean ====
section
/-! DEFINITION. The assembler (30_encoding.md R103, R104): lines of text to command words. A text is a list of
characters (log 14). -/

namespace Sys2Proof.Machine

/-- A line of a program: a command, the directive `.word`, or a pseudo-instruction (R103, R104). -/
inductive AsmLine
  | command (i : Instr)
  | word (w : Word)
  | sendAddrW
  | sendAddrR
  | sendCmd (r : Byte)
  deriving DecidableEq, Repr

/-- The word that a line places in the program (R103, R104). -/
def AsmLine.assemble (p : Params) : AsmLine → Word
  | .command i => encode i
  | .word w => w
  | .sendAddrW => encode (.send (addrW p))
  | .sendAddrR => encode (.send (addrR p))
  | .sendCmd r => encode (.send (cmdByte r))

/-- A digit's value: decimal, or hexadecimal in either case. -/
def digitValue (c : Char) : Option Nat :=
  let n := c.toNat
  if 48 ≤ n ∧ n ≤ 57 then some (n - 48)
  else if 97 ≤ n ∧ n ≤ 102 then some (n - 87)
  else if 65 ≤ n ∧ n ≤ 70 then some (n - 55)
  else none

/-- Digits of one base, most significant first, after the value `acc`. -/
def digitsValue (base acc : Nat) : List Char → Option Nat
  | [] => some acc
  | c :: cs =>
    match digitValue c with
    | some d => if d < base then digitsValue base (acc * base + d) cs else none
    | none => none

/-- A number of at most `bits` bits, `0x` hex or decimal (R103). -/
def numberOf (bits : Nat) (t : List Char) : Option Nat :=
  let v := match t with
    | '0' :: 'x' :: c :: cs => digitsValue 16 0 (c :: cs)
    | c :: cs => digitsValue 10 0 (c :: cs)
    | [] => none
  v.bind (fun n => if n < 2 ^ bits then some n else none)

/-- An operand: a number that fits in 8 bits (R103). -/
def operandOf (t : List Char) : Option Byte := (numberOf 8 t).map (BitVec.ofNat 8)

/-- The words of a line: separated by blanks, a comma being a word of its own. `cur` is the word being read, last
character first. -/
def tokensOf (cur : List Char) : List Char → List (List Char)
  | [] => if cur = [] then [] else [cur.reverse]
  | c :: cs =>
    let before := if cur = [] then [] else [cur.reverse]
    if c = ' ' ∨ c = '\t' then before ++ tokensOf [] cs
    else if c = ',' then before ++ [[',']] ++ tokensOf [] cs
    else tokensOf (c :: cur) cs

/-- The mnemonics of the commands without an operand (R103). -/
def plainMnemonics : List (List Char × AsmLine) :=
  [(['i', 'n', 'i', 't'], .command .init), (['s', 't', 'a', 'r', 't'], .command .start),
   (['r', 'e', 's', 't', 'a', 'r', 't'], .command .restart), (['s', 't', 'o', 'p'], .command .stop),
   (['a', 'c', 'k'], .command .ack), (['n', 'a', 'c', 'k'], .command .nack), (['i', 'd', 'l', 'e'], .command .idle)] ++
  [(['r', 'e', 'a', 'd'], .command .read),
   (['r', 'e', 'a', 'd', '_', 'c', 'h', 'a', 'n', 'n', 'e', 'l', 's'], .command .readChannels),
   (['e', 'n', 'a', 'b', 'l', 'e'], .command .enable), (['d', 'i', 's', 'a', 'b', 'l', 'e'], .command .disable)] ++
  [(['s', 'e', 'n', 'd', '_', 'a', 'd', 'd', 'r', '_', 'w'], .sendAddrW),
   (['s', 'e', 'n', 'd', '_', 'a', 'd', 'd', 'r', '_', 'r'], .sendAddrR)]

/-- The commands with one operand, the alias `read_register` (R104) among them. -/
def unaryLine (m : List Char) (x : Byte) : Option AsmLine :=
  if m = ['s', 'e', 'n', 'd'] then some (.command (.send x))
  else if m = ['r', 'e', 'a', 'd', '_', 'r', 'e', 'g'] then some (.command (.readReg x))
  else if m = ['r', 'e', 'a', 'd', '_', 'r', 'e', 'g', 'i', 's', 't', 'e', 'r'] then some (.command (.readReg x))
  else if m = ['r', 'e', 'a', 'd', '_', '1', '6'] then some (.command (.read16 x))
  else if m = ['s', 'e', 'n', 'd', '_', 'c', 'm', 'd'] then some (.sendCmd x)
  else none

/-- The command with two operands, under both its names (R103, R104). -/
def binaryLine (m : List Char) (x y : Byte) : Option AsmLine :=
  if m = ['w', 'r', 'i', 't', 'e', '_', 'r', 'e', 'g'] then some (.command (.writeReg x y))
  else if m = ['w', 'r', 'i', 't', 'e', '_', 'r', 'e', 'g', 'i', 's', 't', 'e', 'r'] then some (.command (.writeReg x y))
  else none

/-- A line from its words; `none` where it is none of R103's and R104's forms. -/
def lineOf : List (List Char) → Option AsmLine
  | [m] => plainMnemonics.lookup m
  | [m, x] =>
    if m = ['.', 'w', 'o', 'r', 'd'] then (numberOf 24 x).map (fun n => .word (BitVec.ofNat 24 n))
    else (operandOf x).bind (unaryLine m)
  | [m, x, c, y] =>
    if c = [','] then (operandOf x).bind (fun a => (operandOf y).bind (binaryLine m a)) else none
  | _ => none

/-- A text's lines, each without its comment: `;` starts one (R103). `cur` is the line being read, last character
first. -/
def linesOf (cur : List Char) (comment : Bool) : List Char → List (List Char)
  | [] => [cur.reverse]
  | c :: cs =>
    if c = '\n' then cur.reverse :: linesOf [] false cs
    else if comment ∨ c = ';' then linesOf cur true cs
    else linesOf (c :: cur) false cs

/-- The lines of a program, blank ones left out; `none` if one is ill formed. -/
def parseProgram (text : List Char) : Option (List AsmLine) :=
  (((linesOf [] false text).map (tokensOf [])).filter (fun ts => !ts.isEmpty)).mapM lineOf

/-- The host program that a text assembles to (R103). -/
def assemble (p : Params) (text : List Char) : Option (List Word) :=
  (parseProgram text).map (List.map (AsmLine.assemble p))

end Sys2Proof.Machine
end

