-- ==== Sys2Proof/Tests/Slice0.lean ====
section
/-! SUPPORT. Tests: words of every family, ill-formed words, one-step checks from 95_test_vectors.md, and for every
statement with hypotheses a state that meets them. A test's comment names the vector it is from. -/

open Sys2Proof Sys2Proof.Machine

namespace Sys2Proof.Tests

/-! ### States to test on -/

/-- 95's test values of the parameters; the durations and the divisor are any values. -/
def params : Params :=
  { devAddr := 0x29, brg := 0x27, atimeLongest := 0x00, gainUnity := 0x00, dStep := 5, dPower := 7, fosc := 16000000 }

/-- A script of `n` scheduling choices in which the engine goes first. -/
def quick (n : Nat) : Supply Turn := ⟨List.replicate n .engineFirst, 0⟩

/-- The reset state before a program, with peer bytes. -/
def fresh (program : List Word) (bytes : List Byte) : State :=
  { State.reset with env := ⟨params, program, [], [], quick 104, ⟨List.replicate 24 0, 0⟩, ⟨bytes, 0⟩⟩ }

/-- The state after `init` (95, conventions), in a phase, with one more command to issue. -/
def ready (ph : Phase) (bytes : List Byte) : State :=
  { fresh [0x010000, 0x020000] bytes with
    cp := 1, init := true, en := true, mode := 0b1000, smp := true, brg := 0x27, phase := ph }

/-- The state that a command leads to. -/
def run (i : Instr) (s : State) : State :=
  match exec i s with
  | .next t => t
  | .fault _ | .refused _ => s

/-! ### Decoding: words from 30_encoding.md R103 and 95 L2.1, written out bit by bit -/

theorem test_decode_init : decode 0b000000010000000000000000#24 = .command .init := by decide
theorem test_decode_start : decode 0b000000100000000000000000#24 = .command .start := by decide
theorem test_decode_restart : decode 0b000000110000000000000000#24 = .command .restart := by decide
theorem test_decode_stop : decode 0b000001000000000000000000#24 = .command .stop := by decide
theorem test_decode_ack : decode 0b000001010000000000000000#24 = .command .ack := by decide
theorem test_decode_nack : decode 0b000001100000000000000000#24 = .command .nack := by decide
theorem test_decode_idle : decode 0b000001110000000000000000#24 = .command .idle := by decide
theorem test_decode_send : decode 0b000010000101001000000000#24 = .command (.send 0x52) := by decide
theorem test_decode_read : decode 0b000010010000000000000000#24 = .command .read := by decide
theorem test_decode_writeReg : decode 0b000100001111111101111111#24 = .command (.writeReg 0xFF 0x7F) := by decide
theorem test_decode_readReg : decode 0b000100010000000100000000#24 = .command (.readReg 0x01) := by decide
theorem test_decode_read16 : decode 0b000100101111111100000000#24 = .command (.read16 0xFF) := by decide
theorem test_decode_readChannels : decode 0b000100110000000000000000#24 = .command .readChannels := by decide
theorem test_decode_enable : decode 0b000101000000000000000000#24 = .command .enable := by decide
theorem test_decode_disable : decode 0b000101010000000000000000#24 = .command .disable := by decide

/-- The table's numbering is the word's own. -/
theorem test_decodeTableWord :
    decodeTableWord 24 0x10FF7F = some (.writeReg 0xFF 0x7F) ∧ decodeTableWord 24 0x0A0000 = none := by decide

/-! ### Well-formedness: an ill-formed word for each check, refused (95 L2.1) -/

theorem test_illformed_unassigned :
    [0x000000#24, 0x0A0000#24, 0x0F0000#24, 0x160000#24, 0xFFFFFF#24].all (fun w => !legal w) = true := by decide
theorem test_illformed_format_n :
    legal 0x010001 = false ∧ legal 0x017F00 = false ∧ legal 0x130100 = false := by decide
theorem test_illformed_format_a : legal 0x080001 = false ∧ legal 0x110101 = false ∧ legal 0x12FF01 = false := by decide
theorem test_wellformed_format_ab : legal 0x100000 = true ∧ legal 0x10FF7F = true := by decide

/-! ### Wire formats (95 L2.2) -/

theorem test_address_bytes :
    addrW params = 0x52 ∧ addrR params = 0x53 ∧ addrR { params with devAddr := 0x7F } = 0xFF := by decide
theorem test_command_bytes : cmdByte 0x0F = 0x8F ∧ cmdByte 0x7F = 0xFF ∧ cmdByte 0x85 = cmdByte 0x05 := by decide
theorem test_composition :
    compose16 0x12 0x34 = 0x1234 ∧ compose16 0x80 0x01 = 0x8001 ∧ compose16 0x00 0xFF = 0x00FF := by decide
theorem test_high_byte_address : highReg 0x14 = 0x15 ∧ highReg 0xFF = 0x00 := by decide

/-! ### Commands, one step each (95 L1, L2.3, L2.4) -/

/-- T1. -/
theorem test_init :
    let t := run .init (fresh [0x010000] [])
    t.init = true ∧ t.en = true ∧ t.mode = 0b1000 ∧ t.smp = true ∧ t.brg = 0x27 ∧ t.trace = [] ∧ t.cp = 1 ∧
      t.busy = false := by decide
/-- T2. -/
theorem test_init_twice :
    (run .init (ready .idle [])).fault = some ⟨.reinit, some 0x010000, .microOp 0, .idle⟩ := by decide
/-- T5. -/
theorem test_start :
    let t := run .start (ready .idle [])
    t.trace = [.start] ∧ t.phase = .addr ∧ t.sen = false ∧ t.cp = 2 ∧ t.busy = false := by decide
/-- T6. -/
theorem test_start_nested :
    let t := run .start (ready .addr [])
    t.fault = some ⟨.protocol, some 0x020000, .microOp 0, .addr⟩ ∧ t.busy = true ∧ t.cp = 1 ∧ t.seq = 1 := by decide
/-- T24. -/
theorem test_restart :
    let t := run .restart (ready .rxend [])
    t.trace = [.restart] ∧ t.phase = .addr ∧ t.rsen = false := by decide
/-- T9. -/
theorem test_restart_in_addr :
    (run .restart (ready .addr [])).fault = some ⟨.protocol, some 0x030000, .microOp 0, .addr⟩ := by decide
/-- T8. -/
theorem test_stop :
    let t := run .stop (ready .addr [])
    t.trace = [.stop] ∧ t.phase = .idle ∧ t.pen = false := by decide
/-- T7. -/
theorem test_stop_in_idle :
    (run .stop (ready .idle [])).fault = some ⟨.protocol, some 0x040000, .microOp 0, .idle⟩ := by decide
/-- T20. -/
theorem test_ack :
    let t := run .ack (ready .rxb [])
    t.trace = [.mack] ∧ t.ackdt = 0 ∧ t.phase = .rxr := by decide
/-- T27. -/
theorem test_ack_in_txw :
    (run .ack (ready .txw [])).fault = some ⟨.protocol, some 0x050000, .microOp 0, .txw⟩ := by decide
/-- T21. -/
theorem test_nack :
    let t := run .nack (ready .rxb [])
    t.trace = [.mnack] ∧ t.ackdt = 1 ∧ t.phase = .rxend := by decide
/-- T28. -/
theorem test_nack_in_rxr :
    (run .nack (ready .rxr [])).fault = some ⟨.protocol, some 0x060000, .microOp 0, .rxr⟩ := by decide
/-- T30. -/
theorem test_idle :
    let t := run .idle (ready .addr [])
    t.trace = [] ∧ t.phase = .addr ∧ t.cp = 2 := by decide
/-- T4. -/
theorem test_idle_before_init :
    (run .idle (fresh [0x070000] [])).fault = some ⟨.notInit, some 0x070000, .microOp 0, .idle⟩ := by decide
/-- T12: the NACK is ignored. -/
theorem test_send_nacked :
    let s := ready .addr []
    let t := run (.send 0x52) { s with env := { s.env with acks := ⟨[1], 0⟩ } }
    t.trace = [.tx 0x52 1] ∧ t.phase = .txw ∧ t.ackstat = 1 ∧ t.fault = none ∧ t.buf = some 0x52 := by decide
/-- T15. -/
theorem test_send_read_direction : (run (.send 0xFF) (ready .addr [])).phase = .rxr := by decide
/-- T18. -/
theorem test_read :
    let t := run .read (ready .rxr [0xA5])
    t.trace = [.rx 0xA5] ∧ t.phase = .rxb ∧ t.buf = some 0xA5 ∧ t.rb = some 0xA5 ∧ t.res = some 0x00A5 ∧
      t.bf = false ∧ t.rcen = false := by decide
/-- T22. -/
theorem test_read_after_nack :
    (run .read (ready .rxend [])).fault = some ⟨.protocol, some 0x090000, .microOp 0, .rxend⟩ := by decide
/-- L1.1. -/
theorem test_writeReg :
    let t := run (.writeReg 0x0F 0x00) (ready .idle [])
    t.trace = [.start, .delay .step, .tx 0x52 0, .delay .step, .tx 0x8F 0, .delay .step, .tx 0x00 0, .delay .step,
      .stop] ∧ t.phase = .idle ∧ t.res = none ∧ t.seq = 9 := by decide
/-- S3. -/
theorem test_writeReg_alias :
    (RefPeer.after ⟨.replicate 128 0, 0, .nothing⟩ (run (.writeReg 0x85 0x12) (ready .idle [])).trace).reg 0x05 =
      0x12 := by decide
/-- L1.2. -/
theorem test_readReg :
    let t := run (.readReg 0x01) (ready .idle [0x3C])
    t.trace = [.start, .delay .step, .tx 0x52 0, .delay .step, .tx 0x81 0, .delay .step, .restart, .delay .step,
      .tx 0x53 0, .delay .step, .rx 0x3C, .stop, .delay .settle] ∧ t.res = some 0x003C ∧ t.seq = 13 := by decide
/-- S17. -/
theorem test_readReg_in_transaction :
    let t := run (.readReg 0x14) (ready .addr [])
    t.fault = some ⟨.protocol, some 0x111400, .microOp 0, .addr⟩ ∧ t.trace = [] := by decide
/-- L1.3. -/
theorem test_read16 :
    let t := run (.read16 0x14) (ready .idle [0x34, 0x12])
    t.res = some 0x1234 ∧ t.lo = some 0x34 ∧ t.hi = some 0x12 ∧ t.rb = some 0x12 ∧ t.seq = 29 ∧
      t.trace.length = 26 := by decide +kernel
/-- S8: the high byte's address wraps. -/
theorem test_read16_wraps :
    (run (.read16 0xFF) (ready .idle [0xCD, 0xAB])).trace[17]? = some (.tx 0x80 0) := by decide +kernel
/-- S11. -/
theorem test_readChannels :
    let t := run .readChannels (ready .idle [2, 1, 4, 3, 6, 5, 8, 7])
    t.ch = ⟨some 0x0102, some 0x0304, some 0x0506, some 0x0708⟩ ∧ t.res = some 0x0708 ∧ t.seq = 120 ∧
      t.trace.length = 104 := by decide +kernel
/-- S12. -/
theorem test_enable :
    let t := run .enable (ready .idle [])
    t.trace.length = 37 ∧ t.trace[6]? = some (.tx 0x01 0) ∧ t.trace[9]? = some (.delay .power) ∧
      t.trace[16]? = some (.tx 0x03 0) ∧ t.trace[23]? = some (.tx 0x81 0) ∧ t.trace[32]? = some (.tx 0x8F 0) ∧
      t.seq = 37 := by decide +kernel
/-- S14. -/
theorem test_disable :
    let t := run .disable (ready .idle [])
    t.trace[4]? = some (.tx 0x80 0) ∧ t.trace[6]? = some (.tx 0x00 0) ∧ t.trace.length = 9 := by decide

/-! ### Steps (95 L2.5, L2.6, L3) -/

/-- X1: an illegal word wins over `NOT_INIT`, and nothing else changes. -/
theorem test_illegal_word :
    let s := fresh [0x0A0000] []
    advance s = { s with fault := some ⟨.illegalCommand, some 0x0A0000, .microOp 0, .idle⟩ } := by decide
/-- X4: a host read of a register that nothing has written. -/
theorem test_unwritten :
    let s := ready .idle []
    let s' := { s with env := { s.env with reads := [⟨1, .res⟩] } }
    (advance s').fault = some ⟨.unwritten, none, .register .res, .idle⟩ := by decide
/-- T33: a start that the engine does not complete. -/
theorem test_hang :
    let s := ready .idle []
    let t := advance { s with env := { s.env with turns := ⟨[.pause], 0⟩ } }
    t.busy = true ∧ t.sen = true ∧ t.wst = .wSen ∧ t.trace = [] ∧ t.fault = none := by decide
/-- 95 L2.3, collision vector. -/
theorem test_collision :
    let s := { ready .txw [] with tip := true, buf := some 0x11 }
    let t := issue (.uSend 0x22) 0 s
    t.wcol = true ∧ t.buf = some 0x11 ∧ t.bf = false ∧ t.wst = .wBf0 ∧ t.phase = .txw := by decide
/-- 00_scope.md R8, the divisor's formula: 16 MHz and 100 kHz give 39. -/
theorem test_nominalBrg : nominalBrg params = 39 := by decide
/-- L3, P1: the assembler. -/
theorem test_assemble :
    assemble params "init ; begin\nstart\nsend_addr_w\nsend_cmd 0x01\nwrite_reg 15, 0x0a\n.word 0x0A0000".toList =
      some [0x010000, 0x020000, 0x085200, 0x088100, 0x100F0A, 0x0A0000] := by decide +kernel
/-- Every row of the opcode map runs as the first command after reset. -/
theorem test_first_command :
    [0x010000, 0x020000, 0x030000, 0x040000, 0x050000, 0x060000, 0x070000, 0x080000, 0x090000, 0x100000, 0x110000,
      0x120000, 0x130000, 0x140000, 0x150000].all (fun w =>
        match step (State.reset.withFetchWord 24 w) with
        | .next t => t.cur == some (BitVec.ofNat 24 w)
        | .fault _ | .refused _ => false) = true := by decide +kernel

/-! ### Witnesses: states that meet the statements' hypotheses -/

/-- The state after `init` is ready, in every phase. -/
theorem ready_ready (ph : Phase) (bytes : List Byte) : Ready (ready ph bytes) := by
  refine ⟨⟨?_, ?_, ?_, ?_, ?_, ?_, ?_, ?_, ?_, ?_⟩, rfl, rfl⟩ <;>
    simp [ready, fresh, State.reset, params, FlagsMatchHold, Quiescent, Configured, modeI2cMaster]

/-- The state before `init` is ready. -/
theorem fresh_ready (program : List Word) (bytes : List Byte) : Ready (fresh program bytes) := by
  refine ⟨⟨?_, ?_, ?_, ?_, ?_, ?_, ?_, ?_, ?_, ?_⟩, rfl, rfl⟩ <;>
    simp [fresh, State.reset, FlagsMatchHold, Quiescent, Configured]

/-- A script without a pause is prompt, for as far as it reaches. -/
theorem quick_prompt (s : State) (n m : Nat) (h : s.env.turns = quick n) (hm : m ≤ n) : Prompt m s := by
  intro k hk
  have : k < n := by omega
  simp [State.turnAhead, h, quick, Supply.look, this]

theorem ready_prompt (ph : Phase) (bytes : List Byte) (n : Nat) (h : n ≤ 104) : Prompt n (ready ph bytes) :=
  quick_prompt _ 104 n rfl h

/-- For every completion statement: a state that meets its hypotheses, in every phase that one of them asks for. -/
theorem witness_completions :
    (∀ ph bytes, Ready (ready ph bytes) ∧ (ready ph bytes).init = true ∧ (ready ph bytes).phase = ph ∧
      Prompt 104 (ready ph bytes)) ∧
    Ready (fresh [0x010000] []) ∧ (fresh [0x010000] []).init = false :=
  ⟨fun ph bytes => ⟨ready_ready ph bytes, rfl, rfl, ready_prompt ph bytes 104 (by omega)⟩, fresh_ready _ _, rfl⟩

/-- NotInitFault, at every command that it is about. -/
theorem witness_notInit : Ready (fresh [0x020000] []) ∧ (fresh [0x020000] []).init = false ∧ Instr.disable ≠ .init :=
  ⟨fresh_ready _ _, rfl, by decide⟩

/-- ProtocolFault: each command that can be misused has a phase for it, and the state of that phase is ready. -/
theorem witness_protocol :
    [Instr.start, .restart, .stop, .ack, .nack, .send 0x00, .read, .writeReg 0xFF 0x00, .readReg 0x00, .read16 0xFF,
      .readChannels, .enable, .disable].all (fun i => (misusedIn i).any (fun ph => (ready ph []).phase == ph)) = true ∧
    ∀ ph, Ready (ready ph []) := ⟨by decide, fun ph => ready_ready ph []⟩

/-- EncodeOfDecode. -/
theorem witness_decode : decode 0x110100 = .command (.readReg 0x01) := by decide

/-- AddressByte, DirectionIsBitZero, CommandByte, SixteenBitComposition and DelaysAndMoves: the bytes and registers that
their clauses ask for. -/
theorem witness_bytes :
    params.devAddr = 0x29 ∧ (0x52#8).getLsbD 0 = false ∧ (0x53#8).getLsbD 0 = true ∧ 0x80 ≤ (0x80#8).toNat ∧
      (highReg 0xFF).toNat ≠ (0xFF#8).toNat + 1 ∧
      (let s := { ready .idle [] with hi := some 0x12, lo := some 0x34 }
       s.hi = some 0x12 ∧ s.lo = some 0x34) ∧ Channel.red ≠ Channel.blue := by decide

/-- SequencerStep: a state for each of its cases. -/
theorem witness_sequencer :
    let s := beginCommand 0x070000 [.uIdle] (ready .idle [])
    let held := { s with wst := .wIdle, seq := 1 }
    (ready .idle []).busy = false ∧ (run .start (ready .addr [])).fault ≠ none ∧
      (s.busy = true ∧ s.fault = none ∧ s.wst = .none ∧ s.seq < s.mp.length) ∧
      (held.wst ≠ .none ∧ held.cond held.wst = true) ∧
      { held with wst := .none }.mp.length ≤ held.seq := by decide

/-- IllegalWords, each way for a word to be illegal, at the ends of the ranges. -/
theorem witness_illegal :
    [(0x000000#24, Reject.unassignedOp 0x00), (0x0A0000#24, .unassignedOp 0x0A), (0x160000#24, .unassignedOp 0x16),
      (0x015500#24, .nonzeroA 0x55), (0x150001#24, .nonzeroB 0x01), (0x080001#24, .nonzeroB 0x01)].all
      (fun p =>
        let s := fresh [p.1] []
        decode p.1 == .illegal p.2 && !s.busy && s.fault.isNone && dueRead s == none && fetchWord s == some p.1) =
      true := by decide

/-- StepRunsTheDecodedCommand, and the second case of SensorCommandsReturnToIdle. -/
theorem witness_fetch :
    let s := { ready .idle [] with env := { (ready .idle []).env with program := [0x010000, encode .disable] } }
    s.busy = false ∧ s.fault = none ∧ dueRead s = none ∧ fetchWord s = some (encode .disable) ∧
      (advance s).busy = false ∧ decode (encode .disable) = .command .disable ∧ isSensor .disable = true := by decide

/-- The state in which `disable` is held at its start. -/
def heldStart : State :=
  run .disable { ready .idle [] with env := { (ready .idle []).env with turns := ⟨[.pause] ++ (quick 11).script, 0⟩ } }

/-- A command's run keeps the invariant. -/
theorem run_inv (i : Instr) (s : State) (h : Ready s) (hcp : s.cp < s.env.program.length) : BlockInv (run i s) := by
  have : run i s = runBlock (beginCommand (encode i) (expand s.env.params i) s) := by cases i <;> rfl
  rw [this]
  exact runBlock_inv (beginCommand_inv i h.inv h.busy hcp)

theorem ready_turns (ph : Phase) (bytes : List Byte) (q : Supply Turn) :
    Ready { ready ph bytes with env := { (ready ph bytes).env with turns := q } } := by
  obtain ⟨⟨h1, h2, h3, h4, h5, h6, h7, h8, h9, h10⟩, hb, hf⟩ := ready_ready ph bytes
  exact ⟨⟨h1, h2, h3, h4, h5, h6, h7, h8, h9, h10⟩, hb, hf⟩

/-- BusyBlockHoldsTheHost, StepKeepsInvariant and the first case of SensorCommandsReturnToIdle. -/
theorem witness_held :
    BlockInv heldStart ∧ heldStart.busy = true ∧ heldStart.fault = none ∧ heldStart.cur = some (encode .disable) ∧
      heldStart.wst = .wSen ∧ (advance heldStart).busy = false :=
  ⟨run_inv _ _ (ready_turns _ _ _) (by decide), by decide⟩

/-- HostReadDeliversOrFaults, both clauses. -/
theorem witness_hostRead :
    let s := ready .idle []
    let s1 := { s with env := { s.env with reads := [⟨1, .ch .blue⟩] } }
    let s2 := { s1 with ch := ⟨none, none, none, some 0x0708⟩ }
    s1.busy = false ∧ s1.fault = none ∧ dueRead s1 = some (.ch .blue) ∧ s1.result (.ch .blue) = none ∧
      dueRead s2 = some (.ch .blue) ∧ s2.result (.ch .blue) = some 0x0708 := by decide

/-- FaultedStateHasNoStep. -/
theorem witness_faulted : (run .start (ready .addr [])).fault ≠ none := by decide

/-- EndedRunWaits, a clean and an open end. -/
theorem witness_ended :
    let s := { ready .idle [] with cp := 2 }
    (RunOver s ∧ dueRead s = none ∧ s.phase = .idle) ∧ RunOver { s with phase := .addr } :=
  ⟨⟨⟨rfl, rfl, rfl⟩, rfl, rfl⟩, rfl, rfl, rfl⟩

/-- WaitStates, each hold, where it ends and where it does not. -/
theorem witness_holds :
    [WaitState.wSen, .wRsen, .wPen, .wAcken, .wBf0, .wIdle, .wBf1].all (fun w =>
      let s := { ready .idle [] with busy := true, wst := w }
      let t := { s with sen := true, rsen := true, pen := true, acken := true, bf := true }
      s.busy && s.fault.isNone && ((sequencerStep s).isSome != (sequencerStep t).isSome)) = true := by decide

/-- WriteCollision, each flag that collides. -/
theorem witness_collision :
    let s := ready .txw []
    [{ s with sen := true }, { s with rsen := true }, { s with pen := true }, { s with rcen := true },
      { s with acken := true }, { s with tip := true }, { s with bf := true }].all (fun t => t.init && t.collides) =
      true ∧ s.phase = .txw := by decide

/-- The state in which a command is held for the engine; the script pauses after `n` choices. -/
def heldAt (i : Instr) (ph : Phase) (n : Nat) : State :=
  run i { ready ph [] with
    env := { (ready ph []).env with turns := ⟨List.replicate n .sequencerFirst ++ [.pause], 0⟩ } }

theorem heldAt_inv (i : Instr) (ph : Phase) (n : Nat) : BlockInv (heldAt i ph n) :=
  run_inv _ _ (ready_turns _ _ _) (show 1 < 2 by decide)

/-- EngineCompletesConditions, EngineMovesBytes and OneEngineStepAtMost: each engine step is enabled in an invariant state;
the acknowledge clock is, in `W_BF0` and in `W_IDLE`. -/
theorem witness_engine :
    (∀ i ph n, BlockInv (heldAt i ph n)) ∧
    [heldAt .start .idle 0, heldAt .restart .txw 0, heldAt .stop .rxend 0, heldAt .ack .rxb 0, heldAt .nack .rxb 0,
      heldAt .read .rxr 0, heldAt (.send 0x52) .addr 0, heldAt (.send 0x52) .addr 1, heldAt (.send 0x52) .addr 2].map
        engineAction =
      [some .start, some .restart, some .stop, some .ackSequence, some .ackSequence, some .receive, some .shift,
        some .ackClock, some .ackClock] ∧
    (heldAt .start .idle 0).master = true ∧ (heldAt .ack .rxb 0).ackdt = 0 ∧ (heldAt .nack .rxb 0).ackdt = 1 ∧
    (heldAt (.send 0x52) .addr 1).wst = .wBf0 ∧ (heldAt (.send 0x52) .addr 2).wst = .wIdle :=
  ⟨heldAt_inv, by decide⟩

/-- StartIsHeldUntilTheEngineActs, and the first clause of HeldBlockStays. -/
theorem witness_pause :
    let s := { ready .idle [] with env := { (ready .idle []).env with turns := ⟨[.pause, .pause], 0⟩ } }
    Ready s ∧ s.init = true ∧ s.phase = .idle ∧ s.turnAhead 0 = .pause ∧ (run .start s).busy = true ∧
      (run .start s).fault = none ∧ EngineAction.start.enabled (run .start s) = true ∧
      (run .start s).turnAhead 0 = .pause :=
  ⟨ready_turns _ _ _, by decide⟩

/-- The second clause of HeldBlockStays, both hangs. -/
theorem witness_stuck :
    let s := { ready .txw [] with busy := true, wst := .wIdle, wcol := true }
    let t := { ready .rxb [] with busy := true, wst := .wBf1, en := false }
    engineAction s = none ∧ engineAction t = none ∧ t.master = false ∧ t.bf = false := by decide

/-- The statements about one step: a step that completes a command, and one that does not. -/
theorem witness_step :
    let s := ready .idle []
    BlockInv s ∧ s.init = true ∧ step s = .next (advance s) ∧ (advance s).busy = false ∧ (advance s).fault = none ∧
      (advance s).cp = 2 :=
  ⟨(ready_ready _ _).inv, rfl, rfl, by decide⟩

/-- CommandPointerCountsCompletions: a step that issues and completes a command, one that issues and is held, one that ends a
hold; and the three that run none, a host read, an illegal word and the wait at the end. -/
theorem witness_commandPointer :
    let issues := ready .idle []
    let held := { issues with env := { issues.env with turns := ⟨[.pause], 0⟩ } }
    let reads := { issues with res := some 0, env := { issues.env with reads := [⟨1, .res⟩] } }
    let illegal := fresh [0x0A0000] []
    let ended := { issues with cp := 2 }
    (dueRead issues = none ∧ fetchWord issues = some 0x020000 ∧ decode 0x020000 = .command .start) ∧
      ((advance issues).busy = false ∧ (advance issues).cp = 2) ∧
      ((advance held).busy = true ∧ (advance held).cp = 1) ∧ heldStart.busy = true ∧
      [reads, illegal, ended].all (fun s => !s.busy && s.fault.isNone && (advance s).cp == s.cp) = true ∧
      dueRead reads = some .res ∧ decode 0x0A0000 = .illegal (.unassignedOp 0x0A) ∧ fetchWord ended = none := by decide

/-- AcknowledgeBitsAreNeverRead: two states with other acknowledge bits to come. -/
theorem witness_acks :
    let s := ready .addr []
    let s' := { s with ackstat := 1, env := { s.env with acks := ⟨[1], 0⟩ } }
    s ≠ s' ∧ withoutAcks s = withoutAcks s' ∧ step s = .next (advance s) :=
  ⟨by decide, by decide, rfl⟩

/-- ScheduleDoesNotShow: two schedules without a pause. -/
theorem witness_schedules :
    let q : Supply Turn := ⟨List.replicate 3 .sequencerFirst, 0⟩
    let s := ready .addr []
    s.env.turns ≠ q ∧ Ready s ∧ Prompt 3 s ∧ Prompt 3 { s with env := { s.env with turns := q } } ∧
      exec (.send 0x52) s = .next (run (.send 0x52) s) := by
  exact ⟨by decide, ready_ready _ _, ready_prompt _ _ _ (by omega), by unfold Prompt; decide, rfl⟩

/-- HealthyBusCompletesCommands: the state held at its start, whose next step completes the last command. -/
theorem witness_healthy : BlockInv heldStart ∧ heldStart.busy = true ∧ heldStart.fault = none ∧ BusHealthy heldStart := by
  refine ⟨witness_held.1, by decide, by decide, ?_⟩
  have h1 : advance (advance heldStart) = advance heldStart := by decide
  have hn : ∀ n, trajectory heldStart (n + 1) = advance heldStart := by
    intro n
    induction n with
    | zero => rfl
    | succ n ih => rw [trajectory, ih, h1]
  intro n hact
  cases n with
  | zero => exact ⟨1, by omega, by decide⟩
  | succ n =>
    rw [hn] at hact
    exact absurd (show engineAction (advance heldStart) = none by decide) hact

/-- ReferencePeerRead: answers that are the reference peer's. -/
theorem witness_refPeer :
    let q : RefPeer := ⟨.replicate 128 0x34, 0, .nothing⟩
    let s := ready .idle [0x34]
    q.answersAll (newEvents s (run (.readReg 0xFF) s)) = true := by decide

/-- DelayLowerBounds, each clause. -/
theorem witness_delays :
    (∀ i, turnsEnough i ≤ 104 → Prompt (turnsEnough i) (ready .idle [])) ∧
    turnsEnough (.readReg 0) = 13 ∧ turnsEnough .readChannels = 104 ∧ turnsEnough (.writeReg 0 0) = 11 ∧
    turnsEnough .enable = 44 ∧
    ∀ i, exec i (ready .idle []) = .next (run i (ready .idle [])) :=
  ⟨fun i h => ready_prompt _ _ _ h, rfl, rfl, rfl, rfl, fun i => by cases i <;> rfl⟩

/-- MappedRegistersAfterInit. -/
theorem witness_mapped :
    Ready (fresh [0x010000] []) ∧ exec .init (fresh [0x010000] []) = .next (run .init (fresh [0x010000] [])) :=
  ⟨fresh_ready _ _, rfl⟩

end Sys2Proof.Tests
end

section
/-! PROOF. The rules of the step and of the sequencer: which step the machine takes (10_state.md R22, R40, R181), and each
case of the sequencer's step (R41). -/

namespace Sys2Proof.Machine

/-! ### The machine's step -/

/-- A busy block without a fault runs on. -/
theorem step_of_busy {s : State} (hb : s.busy = true) (hf : s.fault = none) : step s = .next (runBlock s) := by
  simp [step, hb, hf]

/-- A read that is due comes before the next command (log 9). -/
theorem step_of_dueRead {s : State} {r : ResultReg} (hb : s.busy = false) (hf : s.fault = none)
    (hd : dueRead s = some r) : step s = .next (hostRead r s) := by
  simp [step, hb, hf, hd]

/-- The host issues a legal word (R40). -/
theorem step_of_command {s : State} {w : Word} {i : Instr} (hb : s.busy = false) (hf : s.fault = none)
    (hd : dueRead s = none) (hw : fetchWord s = some w) (hi : decode w = .command i) : step s = exec i s := by
  simp [step, hb, hf, hd, hw, hi]

/-- A command's meaning is its beginning and the run of its micro-program. -/
theorem exec_eq_runBlock (i : Instr) (s : State) :
    exec i s = .next (runBlock (beginCommand (encode i) (expand s.env.params i) s)) :=
  exec_eq_issueCommand i s

/-! ### The host's reads -/

theorem hostRead_of_unwritten {s : State} {r : ResultReg} (h : s.result r = none) :
    hostRead r s = raiseFault .unwritten none (.register r) s := by
  simp [hostRead, h]

theorem hostRead_of_written {s : State} {r : ResultReg} {v : Half} (h : s.result r = some v) :
    hostRead r s =
      { s with env := { s.env with reads := s.env.reads.tail, delivered := s.env.delivered ++ [(r, v)] } } := by
  simp [hostRead, h]

/-- A host read leaves the block, the command pointer and the trace as they were (R22, R181). -/
theorem hostRead_frame (r : ResultReg) (s : State) :
    (hostRead r s).busy = s.busy ∧ (hostRead r s).cp = s.cp ∧ (hostRead r s).trace = s.trace := by
  obtain ⟨-, h⟩ | ⟨v, -, h⟩ := hostRead_cases r s <;> rw [h] <;> exact ⟨rfl, rfl, rfl⟩

/-! ### The sequencer's step -/

/-- Outside a busy block without a fault the sequencer has no step. -/
theorem sequencerStep_eq_none {s : State} (h : s.busy = false ∨ s.fault ≠ none) : sequencerStep s = none := by
  rw [sequencerStep, if_pos]
  simpa [Option.isSome_iff_ne_none] using h

/-- A held sequencer ends its hold exactly when the hold's condition is met. -/
theorem sequencerStep_of_held {s : State} {w : WaitState} (hb : s.busy = true) (hf : s.fault = none)
    (hw : s.wst = w) (hne : w ≠ .none) :
    sequencerStep s = if s.cond w = true then some (post w s) else none := by
  simp [sequencerStep, hb, hf, hw, hne]

theorem sequencerStep_of_next {s : State} {op : MicroOp} (hb : s.busy = true) (hf : s.fault = none)
    (hw : s.wst = .none) (hop : s.mp[s.seq]? = some op) :
    sequencerStep s = some (issue op s.seq { s with seq := s.seq + 1 }) := by
  simp [sequencerStep, hb, hf, hw, hop]

theorem sequencerStep_of_end {s : State} (hb : s.busy = true) (hf : s.fault = none) (hw : s.wst = .none)
    (hop : s.mp[s.seq]? = none) : sequencerStep s = some (endCommand s) := by
  simp [sequencerStep, hb, hf, hw, hop]

/-- The zero extension of a byte, as R10 writes it. -/
theorem zext16_eq_append (b : Byte) : zext16 b = (0#8) ++ b := by
  simp [zext16, BitVec.setWidth_eq_append]

end Sys2Proof.Machine
end

section
/-! PROOF. What a run of the block and a step of the machine keep: the invariant, the trace so far, the command under way,
the command pointer, the control fields. -/

namespace Sys2Proof.Machine

/-! ### The invariant -/

/-- Nothing is held while the block is not busy (R26). -/
theorem BlockInv.wst_of_not_busy {s : State} (h : BlockInv s) (hb : s.busy = false) : s.wst = .none := by
  by_contra hw
  simp [(h.heldBusy hw).1] at hb

/-- A block that is not busy is quiescent (R43). -/
theorem BlockInv.quiescent_of_not_busy {s : State} (h : BlockInv s) (hb : s.busy = false) : Quiescent s := by
  simpa [FlagsMatchHold, h.wst_of_not_busy hb] using h.flags

/-- A fault that the host raises keeps the invariant. -/
theorem raiseFault_inv {s : State} {c : FaultCode} {w : Option Word} {site : FaultSite} (h : BlockInv s)
    (hb : s.busy = false) (hsite : site = .microOp 0 ∨ ∃ r, site = .register r) :
    BlockInv (raiseFault c w site s) where
  flags := h.flags
  configured := h.configured
  heldInit := h.heldInit
  heldBusy := h.heldBusy
  faultUnheld _ := h.wst_of_not_busy hb
  sending := h.sending
  pointer := h.pointer
  index := h.index
  running hb' := by simp [hb] at hb'
  site r hr := by
    rw [raiseFault_fault, Option.some.injEq] at hr
    subst hr
    exact hsite

/-- The invariant does not depend on the host's reads. -/
theorem hostRead_inv {s : State} (r : ResultReg) (h : BlockInv s) (hb : s.busy = false) : BlockInv (hostRead r s) := by
  obtain ⟨-, hr⟩ | ⟨v, -, hr⟩ := hostRead_cases r s
  · rw [hr]
    exact raiseFault_inv h hb (.inr ⟨r, rfl⟩)
  · rw [hr]
    obtain ⟨flags, conf, hi, hbz, fu, snd, ptr, idx, run, site⟩ := h
    exact ⟨flags, conf, hi, hbz, fu, snd, ptr, idx, run, site⟩

/-- A word that is fetched stands in the program. -/
theorem cp_lt_of_fetchWord {s : State} {w : Word} (h : fetchWord s = some w) : s.cp < s.env.program.length :=
  (List.getElem?_eq_some_iff.mp h).1

/-- Every step of the machine keeps the invariant. -/
theorem step_inv {s t : State} (h : BlockInv s) (hst : step s = .next t) : BlockInv t := by
  obtain ⟨-, ⟨-, rfl⟩ | ⟨hb, ⟨r, -, rfl⟩ | ⟨-, -, rfl⟩ | ⟨w, i, -, hw, -, rfl⟩ | ⟨w, r, -, -, -, rfl⟩⟩⟩ :=
    step_cases hst
  · exact runBlock_inv h
  · exact hostRead_inv r h hb
  · exact h
  · exact runBlock_inv (beginCommand_inv i h hb (cp_lt_of_fetchWord hw))
  · exact raiseFault_inv h hb (.inl rfl)

/-! ### The trace -/

theorem issue_trace (op : MicroOp) (n : Nat) (s : State) : s.trace <+: (issue op n s).trace := by
  obtain ⟨c, -, h⟩ | ⟨-, h⟩ := issue_cases op n s
  · rw [h, raiseFault_trace]
  · rw [h]
    obtain he | ⟨k, -, he⟩ := effect_trace op s
    · rw [he]
    · exact ⟨_, he.symm⟩

theorem sequencerStep_trace {s t : State} (h : sequencerStep s = some t) : s.trace <+: t.trace := by
  obtain ⟨-, -, ⟨-, -, rfl⟩ | ⟨-, op, -, rfl⟩ | ⟨-, -, rfl⟩⟩ := sequencerStep_cases h
  · obtain ⟨-, -, -, -, -, -, -, htr, -, -⟩ := post_frame s.wst s
    rw [htr]
  · exact issue_trace op s.seq { s with seq := s.seq + 1 }
  · rw [endCommand_trace]

theorem runBlock_trace (s : State) : s.trace <+: (runBlock s).trace := by
  refine runBlock_induction (P := fun t => s.trace <+: t.trace) s (List.prefix_refl _) ?_ ?_ ?_
  · intro u t hu ht
    exact hu.trans (sequencerStep_trace ht)
  · intro u a hu _ _ _
    obtain ⟨⟨es, he, -⟩, -⟩ := perform_trace a (takeTurns 1 u)
    exact hu.trans ⟨es, he.symm⟩
  · intro u hu
    exact hu

/-! ### The command under way -/

/-- Two states run the same command, with the same reads of the host behind them and before them. -/
def SameCommand (t s : State) : Prop :=
  t.cur = s.cur ∧ t.mp = s.mp ∧ t.env.delivered = s.env.delivered ∧ t.env.reads = s.env.reads

theorem SameCommand.trans {u t s : State} (h : SameCommand u t) (h' : SameCommand t s) : SameCommand u s := by
  obtain ⟨hcur, hmp, hdelivered, hreads⟩ := h
  obtain ⟨gcur, gmp, gdelivered, greads⟩ := h'
  exact ⟨hcur.trans gcur, hmp.trans gmp, hdelivered.trans gdelivered, hreads.trans greads⟩

theorem issue_sameCommand (op : MicroOp) (n : Nat) (s : State) : SameCommand (issue op n s) s := by
  obtain ⟨c, -, h⟩ | ⟨-, h⟩ := issue_cases op n s
  · rw [h]
    exact ⟨rfl, rfl, rfl, rfl⟩
  · obtain ⟨-, -, hcur, hmp, -, -, henv, -⟩ := effect_frame op s
    rw [h, SameCommand, hcur, hmp, henv]
    exact ⟨rfl, rfl, rfl, rfl⟩

theorem sequencerStep_sameCommand {s t : State} (h : sequencerStep s = some t) : SameCommand t s := by
  obtain ⟨-, -, ⟨-, -, rfl⟩ | ⟨-, op, -, rfl⟩ | ⟨-, -, rfl⟩⟩ := sequencerStep_cases h
  · obtain ⟨-, -, hcur, hmp, -, -, henv, -⟩ := post_frame s.wst s
    rw [SameCommand, hcur, hmp, henv]
    exact ⟨rfl, rfl, rfl, rfl⟩
  · exact issue_sameCommand op s.seq { s with seq := s.seq + 1 }
  · exact ⟨rfl, rfl, rfl, rfl⟩

theorem perform_sameCommand (a : EngineAction) (s : State) : SameCommand (a.perform s) s := by
  cases a <;> exact ⟨rfl, rfl, rfl, rfl⟩

theorem runBlock_sameCommand (s : State) : SameCommand (runBlock s) s :=
  runBlock_induction (P := fun t => SameCommand t s) s ⟨rfl, rfl, rfl, rfl⟩
    (fun _ _ hu ht => (sequencerStep_sameCommand ht).trans hu)
    (fun u a hu _ _ _ => (perform_sameCommand a (takeTurns 1 u)).trans hu)
    (fun _ hu => hu)

/-! ### The command pointer -/

/-- How far the command that `cp = n` points to is: complete without a fault, with `cp` moved on, or still executing. -/
def AtCommand (n : Nat) (t : State) : Prop :=
  (t.busy = false ∧ t.fault = none ∧ t.cp = n + 1) ∨ (t.busy = true ∧ t.cp = n)

/-- A sequencer step is one of a busy block, and only a command's completion moves `cp` on (R41). -/
theorem sequencerStep_atCommand {n : Nat} {s t : State} (hs : AtCommand n s) (h : sequencerStep s = some t) :
    AtCommand n t := by
  obtain ⟨hb, hf, hcase⟩ := sequencerStep_cases h
  have hcp : s.cp = n := by simpa [AtCommand, hb] using hs
  obtain ⟨-, -, rfl⟩ | ⟨-, op, -, rfl⟩ | ⟨-, -, rfl⟩ := hcase
  · obtain ⟨hcp', hb', -⟩ := post_frame s.wst s
    exact .inr ⟨hb'.trans hb, hcp'.trans hcp⟩
  · right
    obtain ⟨c, -, hi⟩ | ⟨-, hi⟩ := issue_cases op s.seq { s with seq := s.seq + 1 }
    · rw [hi]
      exact ⟨hb, hcp⟩
    · obtain ⟨hcp', hb', -⟩ := effect_frame op { s with seq := s.seq + 1 }
      rw [hi]
      exact ⟨hb'.trans hb, hcp'.trans hcp⟩
  · exact .inl ⟨rfl, hf, congrArg (· + 1) hcp⟩

theorem runBlock_atCommand {s : State} (hb : s.busy = true) : AtCommand s.cp (runBlock s) := by
  refine runBlock_induction (P := AtCommand s.cp) s (.inr ⟨hb, rfl⟩) (fun _ _ => sequencerStep_atCommand) ?_
    (fun _ hu => hu)
  intro u a hu _ _ _
  obtain ⟨hcp, hbusy, -, -, -, -, hfault, -⟩ := perform_frame a (takeTurns 1 u)
  rwa [AtCommand, hcp, hbusy, hfault]

/-! ### The control fields -/

theorem SameControl.refl (s : State) : SameControl s s := ⟨rfl, rfl, rfl, rfl, rfl, rfl, rfl⟩

theorem SameControl.trans {u t s : State} (h : SameControl u t) (h' : SameControl t s) : SameControl u s := by
  obtain ⟨hen, hmode, hsmp, hbrg, hscl, hsda, hinit⟩ := h
  obtain ⟨gen, gmode, gsmp, gbrg, gscl, gsda, ginit⟩ := h'
  exact ⟨hen.trans gen, hmode.trans gmode, hsmp.trans gsmp, hbrg.trans gbrg, hscl.trans gscl, hsda.trans gsda,
    hinit.trans ginit⟩

theorem SameControl.init_eq {t s : State} (h : SameControl t s) : t.init = s.init := by
  obtain ⟨-, -, -, -, -, -, hinit⟩ := h
  exact hinit

theorem SameControl.master_eq {t s : State} (h : SameControl t s) : t.master = s.master := by
  obtain ⟨hen, hmode, -⟩ := h
  rw [State.master, State.master, hen, hmode]

/-- After `INIT` no issue writes a control field: a second `uINIT` faults (R31, R120). -/
theorem issue_control {s : State} (op : MicroOp) (n : Nat) (hi : s.init = true) : SameControl (issue op n s) s := by
  obtain ⟨c, -, h⟩ | ⟨hchk, h⟩ := issue_cases op n s
  · rw [h]
    exact .refl s
  · obtain ⟨-, -, hinit⟩ := check_none hchk
    rw [h]
    exact effect_control s (fun ho => by simp [hinit ho] at hi)

theorem sequencerStep_control {s t : State} (hi : s.init = true) (h : sequencerStep s = some t) : SameControl t s := by
  obtain ⟨-, -, ⟨-, -, rfl⟩ | ⟨-, op, -, rfl⟩ | ⟨-, -, rfl⟩⟩ := sequencerStep_cases h
  · exact post_control s.wst s
  · exact issue_control (s := { s with seq := s.seq + 1 }) op s.seq hi
  · exact .refl s

theorem runBlock_control {s : State} (hi : s.init = true) : SameControl (runBlock s) s :=
  runBlock_induction (P := fun t => SameControl t s) s (.refl s)
    (fun _ _ hu ht => (sequencerStep_control (hu.init_eq.trans hi) ht).trans hu)
    (fun u a hu _ _ _ => (perform_control a (takeTurns 1 u)).trans hu)
    (fun _ hu => hu)

theorem hostRead_control (r : ResultReg) (s : State) : SameControl (hostRead r s) s := by
  obtain ⟨-, h⟩ | ⟨v, -, h⟩ := hostRead_cases r s <;> rw [h] <;> exact .refl s

/-- After `INIT` no step of the machine writes a control field (R31). -/
theorem step_control {s t : State} (hi : s.init = true) (h : step s = .next t) : SameControl t s := by
  obtain ⟨-, ⟨-, rfl⟩ | ⟨-, ⟨r, -, rfl⟩ | ⟨-, -, rfl⟩ | ⟨w, i, -, -, -, rfl⟩ | ⟨w, r, -, -, -, rfl⟩⟩⟩ := step_cases h
  · exact runBlock_control hi
  · exact hostRead_control r s
  · exact .refl _
  · exact runBlock_control (s := beginCommand (encode i) (expand s.env.params i) s) hi
  · exact .refl s

/-! ### The first `INIT` -/

/-- The first `INIT` is its one micro-op, and completes (R121). -/
theorem exec_init {s : State} (h : Ready s) (hi : s.init = false) :
    exec .init s = .next (endCommand (opDone .uInit (beginCommand (encode .init) [.uInit] s))) := by
  have hq := h.inv.quiescent_of_not_busy h.busy
  obtain ⟨-, -, -, -, -, htip, hbf, -⟩ := id hq
  have hissue : issue .uInit 0 { beginCommand (encode .init) [.uInit] s with seq := 1 } =
      opDone .uInit (beginCommand (encode .init) [.uInit] s) := by
    simp [issue, MicroOp.check, hi, MicroOp.effect, opDone]
  have hat : AtIssue (opDone .uInit (beginCommand (encode .init) [.uInit] s)) :=
    ⟨rfl, h.fault, rfl, ⟨rfl, rfl, rfl, rfl, rfl, htip, hbf, rfl⟩, rfl, rfl⟩
  calc exec .init s = .next (runBlock (beginCommand (encode .init) [.uInit] s)) := exec_eq_runBlock .init s
    _ = .next (runBlock (opDone .uInit (beginCommand (encode .init) [.uInit] s))) := by
        have := runBlock_issue (s := beginCommand (encode .init) [.uInit] s) (op := .uInit) rfl h.fault rfl hq rfl
        exact congrArg Host.Outcome.next (this.trans (congrArg runBlock hissue))
    _ = _ := by rw [runBlock_end hat rfl]

end Sys2Proof.Machine
end

section
/-! PROOF. The statements on the state and its invariants (10_state.md). -/

namespace Sys2Proof.Proofs

open Sys2Proof.Machine

/-- Settles O43: what each kind of step leaves satisfies the invariant. -/
theorem stepKeepsInvariant : Obligations.StepKeepsInvariant :=
  fun _ _ => step_inv

/-- Settles O12: the run of the block keeps the command under way and the host's reads. -/
theorem busyBlockHoldsTheHost : Obligations.BusyBlockHoldsTheHost :=
  fun s hb hf => ⟨runBlock s, step_of_busy hb hf, runBlock_sameCommand s⟩

/-- Settles O44: the invariant holds after the step, and it says so of a block that is not busy. -/
theorem notBusyIsQuiescent : Obligations.NotBusyIsQuiescent :=
  fun _ _ h hst hb _ => (step_inv h hst).quiescent_of_not_busy hb

/-- Settles O45: the run of the block only appends, and no step of the host writes the trace. -/
theorem traceOnlyGrows : Obligations.TraceOnlyGrows := by
  intro s t h
  suffices hgrow : s.trace <+: t.trace by
    obtain ⟨es, he⟩ := hgrow
    exact ⟨es, he.symm⟩
  obtain ⟨-, ⟨-, rfl⟩ | ⟨-, ⟨r, -, rfl⟩ | ⟨-, -, rfl⟩ | ⟨w, i, -, -, -, rfl⟩ | ⟨w, r, -, -, -, rfl⟩⟩⟩ := step_cases h
  · exact runBlock_trace s
  · obtain ⟨-, -, htrace⟩ := hostRead_frame r s
    rw [htrace]
  · exact List.prefix_refl _
  · exact runBlock_trace (beginCommand (encode i) (expand s.env.params i) s)
  · exact List.prefix_refl _

/-- Settles O47: a run of the block starts at the command that `cp` points to, and the host's other steps write neither
`cp` nor `busy`. -/
theorem commandPointerCountsCompletions : Obligations.CommandPointerCountsCompletions := by
  intro s t h
  obtain ⟨-, ⟨hb, rfl⟩ | ⟨hb, hcase⟩⟩ := step_cases h
  · exact ⟨fun _ => runBlock_atCommand hb, fun hn => absurd (.inl hb) hn⟩
  have hruns : RunsCommand s ↔ ∃ w i, dueRead s = none ∧ fetchWord s = some w ∧ decode w = .command i := by
    simp [RunsCommand, hb]
  rw [hruns]
  obtain ⟨r, hd, rfl⟩ | ⟨hd, hw, rfl⟩ | ⟨w, i, hd, hw, hi, rfl⟩ | ⟨w, r, hd, hw, hi, rfl⟩ := hcase
  · obtain ⟨hb', hcp', -⟩ := hostRead_frame r s
    exact ⟨by simp [hd], fun _ => ⟨hb'.trans hb, hcp'⟩⟩
  · exact ⟨by simp [hw], fun _ => ⟨hb, rfl⟩⟩
  · exact ⟨fun _ => runBlock_atCommand (s := beginCommand (encode i) (expand s.env.params i) s) rfl,
      fun hn => absurd ⟨w, i, hd, hw, hi⟩ hn⟩
  · exact ⟨by simp [hw, hi], fun _ => ⟨hb, rfl⟩⟩

/-- Settles O48: after `INIT` a step keeps every control field, and the invariant gives master mode. -/
theorem controlFieldsStayAfterInit : Obligations.ControlFieldsStayAfterInit := by
  intro s t h hi hst
  have hsame := step_control hi hst
  obtain ⟨hen, hmode, hsmp, hbrg, hscl, hsda, hinit⟩ := id hsame
  exact ⟨hinit.trans hi, hsame.master_eq.trans (h.master hi), hen, hmode, hsmp, hbrg, hscl, hsda⟩

/-- Settles O10: the dispatch of `step` where the host issues a legal word. -/
theorem stepRunsTheDecodedCommand : Obligations.StepRunsTheDecodedCommand :=
  fun _ _ _ hb hf hd hw hi => step_of_command hb hf hd hw hi

/-- Settles O11: the writes of R40 are those of `beginCommand`. -/
theorem issueBeginsTheMicroProgram : Obligations.IssueBeginsTheMicroProgram :=
  exec_eq_runBlock

/-- Settles O13, by whether the register has been written. -/
theorem hostReadDeliversOrFaults : Obligations.HostReadDeliversOrFaults := by
  intro s r hb hf hd
  rw [step_of_dueRead hb hf hd]
  constructor
  · intro h
    rw [hostRead_of_unwritten h]
    rfl
  · intro v h
    rw [hostRead_of_written h]

/-- Settles O16, field by field. -/
theorem resetState : Obligations.ResetState := by
  have hch (c : Channel) : State.reset.ch.get c = none := by cases c <;> rfl
  exact ⟨⟨rfl, hch, rfl, rfl, rfl, rfl⟩, ⟨rfl, rfl, rfl, rfl, rfl, rfl⟩, ⟨rfl, rfl, rfl, rfl, rfl⟩,
    ⟨rfl, rfl, rfl, rfl, rfl⟩, ⟨rfl, rfl, rfl, rfl, rfl, rfl⟩, rfl, rfl, rfl, rfl⟩

/-- Settles O33, by the cases of R41. -/
theorem sequencerStep : Obligations.SequencerStep := by
  refine fun s => ⟨sequencerStep_eq_none, fun hb hf => ⟨sequencerStep_of_held hb hf rfl, ?_, ?_⟩⟩
  · intro hw h
    exact sequencerStep_of_next hb hf hw (List.getElem?_eq_getElem h)
  · intro hw h
    exact sequencerStep_of_end hb hf hw (List.getElem?_eq_none h)

/-- Settles O35, by the rows of R42. -/
theorem waitStates : Obligations.WaitStates := by
  refine ⟨fun s b => ⟨rfl, rfl, rfl, rfl, rfl, rfl, rfl, rfl⟩, fun s hb hf => ?_⟩
  have hzext : zext16 = fun v => (0#8) ++ v := funext zext16_eq_append
  refine ⟨fun hw => ?_, fun hw => ?_, fun hw => ?_, fun hw => ?_, fun hw => ?_, fun hw => ?_, fun hw => ?_⟩
  all_goals rw [sequencerStep_of_held hb hf hw (by simp)]
  case refine_6 => simp [State.cond, State.idleCond, State.conditionArmed, post, and_assoc]
  case refine_7 => simp [State.cond, post, hzext]
  all_goals simp [State.cond, post]

/-- Settles O42: at reset nothing is held, no flag is set and no command is under way. -/
theorem resetKeepsInvariant : Obligations.ResetKeepsInvariant where
  flags := ⟨rfl, rfl, rfl, rfl, rfl, rfl, rfl, rfl⟩
  configured := ⟨rfl, rfl, rfl, rfl, rfl, rfl⟩
  heldInit h := absurd rfl h
  heldBusy h := absurd rfl h
  faultUnheld _ := rfl
  sending h := nomatch h
  pointer := ⟨Nat.zero_le _, fun h => nomatch h⟩
  index := Nat.zero_le _
  running h := nomatch h
  site _ h := nomatch h

/-- Settles O55: the control fields that the first `INIT` writes, at their places in the registers. -/
theorem mappedRegistersAfterInit : Obligations.MappedRegistersAfterInit := by
  refine ⟨⟨rfl, rfl, rfl, rfl, rfl, rfl⟩, ?_⟩
  intro s t h hi hex
  obtain ⟨-, -, -, -, -, htip, hbf, -⟩ := h.inv.quiescent_of_not_busy h.busy
  rw [exec_init h hi] at hex
  cases hex
  refine ⟨?_, ?_, ?_, ?_⟩
  · simp [Sfr.value, opDone, issueInit, orBit, modeI2cMaster]
  · simp [Sfr.value, opDone, issueInit, orBit, htip, hbf]
  · simp [Sfr.value, opDone, issueInit, BitVec.setWidth_eq_append]
  · simp [Sfr.value, opDone, issueInit, orBit]

end Sys2Proof.Proofs
end

section
/-! PROOF. The engine's steps (20_memory.md R61 to R70): what the hold says of the enabled step, and the host program and
the parameters, which no agent's step writes (R79, R212). -/

namespace Sys2Proof.Machine

/-! ### The enabled step -/

/-- The engine step that each hold waits for (R42, R70). -/
def heldAction (s : State) : Option EngineAction :=
  match s.wst with
  | .none => none
  | .wSen => some .start
  | .wRsen => some .restart
  | .wPen => some .stop
  | .wAcken => some .ackSequence
  | .wBf0 => some (if s.bf then .shift else .ackClock)
  | .wIdle => some .ackClock
  | .wBf1 => some .receive

/-- In an invariant state an enabled step is the one that the hold waits for. -/
theorem heldAction_of_enabled {s : State} {a : EngineAction} (h : BlockInv s) (ha : a.enabled s = true) :
    heldAction s = some a := by
  obtain ⟨hw, rfl⟩ | ⟨hw, rfl⟩ | ⟨hw, rfl⟩ | ⟨hw, rfl⟩ | ⟨hw, rfl, hbf⟩ | ⟨hw, rfl, hbf⟩ | ⟨hw, rfl⟩ | ⟨hw, rfl⟩ :=
    enabled_hold h.flags ha
  all_goals simp [heldAction, *]

/-- At most one engine step is enabled in an invariant state (R70). -/
theorem enabled_unique {s : State} {a b : EngineAction} (h : BlockInv s) (ha : a.enabled s = true)
    (hb : b.enabled s = true) : a = b :=
  Option.some.inj ((heldAction_of_enabled h ha).symm.trans (heldAction_of_enabled h hb))

/-- With no step to take the engine has none enabled. -/
theorem enabled_eq_false_of_engineAction_eq_none {s : State} (h : engineAction s = none) (a : EngineAction) :
    a.enabled s = false := by
  have hall := List.find?_eq_none.mp h a (by cases a <;> decide)
  simpa using hall

/-- In an invariant state the engine takes whichever step is enabled. -/
theorem engineAction_of_enabled {s : State} {a : EngineAction} (h : BlockInv s) (ha : a.enabled s = true) :
    engineAction s = some a := by
  cases hact : engineAction s with
  | none => simp [enabled_eq_false_of_engineAction_eq_none hact a] at ha
  | some b => rw [enabled_unique h ha (engineAction_enabled hact)]

theorem engineStep_of_enabled {s : State} {a : EngineAction} (h : BlockInv s) (ha : a.enabled s = true) :
    engineStep s = some (a.perform s) := by
  rw [engineStep, engineAction_of_enabled h ha, Option.map_some]

/-- A byte in transmission has its value: the acknowledge clock of an invariant state finds `BUF` written (R68). -/
theorem buf_of_ackClock_enabled {s : State} (h : BlockInv s) (ha : EngineAction.enabled s .ackClock = true) :
    ∃ b, s.buf = some b := by
  simp only [EngineAction.enabled, Bool.and_eq_true] at ha
  obtain ⟨⟨-, htip⟩, -⟩ := ha
  exact Option.ne_none_iff_exists'.mp (h.sending htip)

/-! ### What the step relation is given -/

/-- Two states have the same host program and the same parameters (R79, R212). -/
def SameProgram (t s : State) : Prop := t.env.program = s.env.program ∧ t.env.params = s.env.params

theorem SameProgram.refl (s : State) : SameProgram s s := ⟨rfl, rfl⟩

theorem SameProgram.trans {u t s : State} (h : SameProgram u t) (h' : SameProgram t s) : SameProgram u s := by
  obtain ⟨hprogram, hparams⟩ := h
  obtain ⟨gprogram, gparams⟩ := h'
  exact ⟨hprogram.trans gprogram, hparams.trans gparams⟩

theorem SameProgram.of_env {t s : State} (h : t.env = s.env) : SameProgram t s := ⟨by rw [h], by rw [h]⟩

theorem issue_env (op : MicroOp) (n : Nat) (s : State) : (issue op n s).env = s.env := by
  obtain ⟨c, -, h⟩ | ⟨-, h⟩ := issue_cases op n s
  · rw [h, raiseFault_env]
  · obtain ⟨-, -, -, -, -, -, henv, -⟩ := effect_frame op s
    rw [h, henv]

/-- The sequencer draws no answer and writes no argument of the step relation. -/
theorem sequencerStep_env {s t : State} (h : sequencerStep s = some t) : t.env = s.env := by
  obtain ⟨-, -, ⟨-, -, rfl⟩ | ⟨-, op, -, rfl⟩ | ⟨-, -, rfl⟩⟩ := sequencerStep_cases h
  · obtain ⟨-, -, -, -, -, -, henv, -⟩ := post_frame s.wst s
    exact henv
  · exact issue_env op s.seq { s with seq := s.seq + 1 }
  · exact endCommand_env s

theorem perform_sameProgram (a : EngineAction) (s : State) : SameProgram (a.perform s) s := by
  obtain ⟨-, -, hprogram, hparams⟩ := perform_trace a s
  exact ⟨hprogram, hparams⟩

theorem runBlock_sameProgram (s : State) : SameProgram (runBlock s) s :=
  runBlock_induction (P := fun t => SameProgram t s) s (.refl s)
    (fun _ _ hu ht => (SameProgram.of_env (sequencerStep_env ht)).trans hu)
    (fun u a hu _ _ _ => (perform_sameProgram a (takeTurns 1 u)).trans hu)
    (fun _ hu => hu)

theorem hostRead_sameProgram (r : ResultReg) (s : State) : SameProgram (hostRead r s) s := by
  obtain ⟨-, h⟩ | ⟨v, -, h⟩ := hostRead_cases r s <;> rw [h] <;> exact ⟨rfl, rfl⟩

/-- No step of the machine writes the host program or the parameters. -/
theorem step_sameProgram {s t : State} (h : step s = .next t) : SameProgram t s := by
  obtain ⟨-, ⟨-, rfl⟩ | ⟨-, ⟨r, -, rfl⟩ | ⟨-, -, rfl⟩ | ⟨w, i, -, -, -, rfl⟩ | ⟨w, r, -, -, -, rfl⟩⟩⟩ := step_cases h
  · exact runBlock_sameProgram s
  · exact hostRead_sameProgram r s
  · exact .refl _
  · exact runBlock_sameProgram (beginCommand (encode i) (expand s.env.params i) s)
  · exact .refl s

end Sys2Proof.Machine
end

section
/-! PROOF. A whole command under a schedule without pauses: its first micro-op's check decides between a fault and the
fold of its micro-ops (10_state.md R41; 60_exceptions.md R183), and neither reads the schedule. -/

namespace Sys2Proof.Machine

/-! ### The first micro-op's checks -/

/-- A check does not read the sequencer's fields (R120). -/
theorem check_beginCommand (op : MicroOp) (i : Instr) (n : Nat) (s : State) :
    op.check { beginCommand (encode i) (expand s.env.params i) s with seq := n } = op.check s := by
  cases op <;> rfl

/-- A command whose first micro-op fails its check ends there, in the fault (R120, R181, R183). -/
theorem exec_of_check_fails {s : State} {i : Instr} {op : MicroOp} {ops : List MicroOp} {c : FaultCode} (h : Ready s)
    (he : expand s.env.params i = op :: ops) (hc : op.check s = some c) :
    exec i s = .next (commandFaulted i c s) := by
  have hop : (expand s.env.params i)[0]? = some op := by rw [he, List.getElem?_cons_zero]
  have hissue : issue op 0 { beginCommand (encode i) (expand s.env.params i) s with seq := 1 } =
      commandFaulted i c s := by
    rw [issue, check_beginCommand, hc]
    rfl
  calc exec i s = .next (runBlock (beginCommand (encode i) (expand s.env.params i) s)) := exec_eq_runBlock i s
    _ = .next (runBlock (issue op 0 { beginCommand (encode i) (expand s.env.params i) s with seq := 1 })) :=
        congrArg _ (runBlock_issue (s := beginCommand (encode i) (expand s.env.params i) s) rfl h.fault rfl
          (h.inv.quiescent_of_not_busy h.busy) hop)
    _ = _ := by rw [hissue, runBlock_fault rfl]

/-- Only `INIT` has the micro-op `uINIT`, as its first (R121). -/
theorem eq_init_of_expand {p : Params} {i : Instr} {ops : List MicroOp} (h : expand p i = .uInit :: ops) :
    i = .init := by
  cases i <;> simp [expand, expandWriteReg, expandReadReg, expandRead16, expandReadChannels, expandChannel,
    expandEnable, expandDisable] at h ⊢

@[simp] theorem opsTurns_writeReg (p : Params) (r v : Byte) : opsTurns (expandWriteReg p r v) = 11 := rfl

@[simp] theorem opsTurns_readReg (p : Params) (r : Byte) : opsTurns (expandReadReg p r) = 13 := rfl

@[simp] theorem opsTurns_read16 (p : Params) (r : Byte) : opsTurns (expandRead16 p r) = 26 := by
  simp [expandRead16, opsTurns_append, opsTurns, opTurns]

/-- The scheduling choices allowed to a command are those of its micro-ops together. -/
theorem opsTurns_expand (p : Params) (i : Instr) : opsTurns (expand p i) = turnsEnough i := by
  cases i <;> simp [expand, turnsEnough, expandReadChannels, expandChannel, expandEnable, expandDisable,
    opsTurns_append, opsTurns, opTurns]

/-- A command whose first micro-op passes its check is the fold of its micro-ops, under a schedule without pauses (R41). -/
theorem exec_of_check_passes {s : State} {i : Instr} {op : MicroOp} {ops : List MicroOp} (h : Ready s)
    (he : expand s.env.params i = op :: ops) (hc : op.check s = none) (ht : Prompt (turnsEnough i) s) :
    exec i s = .next (endCommand ((expand s.env.params i).foldl (fun s op => opDone op s)
      (beginCommand (encode i) (expand s.env.params i) s))) := by
  obtain ⟨hacc, hinit, hinit'⟩ := check_none hc
  by_cases ho : op = .uInit
  · subst ho
    obtain rfl := eq_init_of_expand he
    exact exec_init h (hinit' rfl)
  · obtain ⟨op', ops', he', htr⟩ := expand_first s.env.params i
    obtain ⟨rfl, rfl⟩ := List.cons.inj (he.symm.trans he')
    have hi : s.init = true := hinit htr ho
    have hat : AtIssue (beginCommand (encode i) (expand s.env.params i) s) :=
      ⟨rfl, h.fault, rfl, h.inv.quiescent_of_not_busy h.busy, hi, h.inv.master hi⟩
    have hwalk : phaseWalk (expand s.env.params i) s.phase ≠ none := by
      obtain ⟨ph, hph, -⟩ := phaseWalk_expand_tail _ i op ops _ he hacc
      simp [he, phaseWalk, ho, hacc, hph]
    rw [← opsTurns_expand s.env.params i] at ht
    exact (exec_eq_runBlock i s).trans (congrArg _ (runBlock_fold _ hat ht List.drop_zero hwalk))

/-! ### The schedule -/

/-- A whole micro-op does the same whatever the scheduling choices are. -/
theorem withoutTurns_opDone (op : MicroOp) (s : State) :
    withoutTurns (opDone op s) = withoutTurns (opDone op (withoutTurns s)) := by
  cases op <;> rfl

/-- A whole command does the same whatever the scheduling choices are. -/
theorem withoutTurns_foldl_opDone (ops : List MicroOp) {s s' : State} (h : withoutTurns s = withoutTurns s') :
    withoutTurns (ops.foldl (fun s op => opDone op s) s) = withoutTurns (ops.foldl (fun s op => opDone op s) s') := by
  induction ops generalizing s s' with
  | nil => exact h
  | cons op ops ih =>
    refine ih ?_
    rw [withoutTurns_opDone, h, ← withoutTurns_opDone]

theorem withoutTurns_beginCommand {s s' : State} (w : Word) (mp : List MicroOp)
    (h : withoutTurns s = withoutTurns s') :
    withoutTurns (beginCommand w mp s) = withoutTurns (beginCommand w mp s') :=
  congrArg (beginCommand w mp) h

theorem withoutTurns_endCommand {s s' : State} (h : withoutTurns s = withoutTurns s') :
    withoutTurns (endCommand s) = withoutTurns (endCommand s') :=
  congrArg endCommand h

/-- The state with other scheduling choices to come. -/
def withTurns (q : Supply Turn) (s : State) : State := { s with env := { s.env with turns := q } }

theorem Ready.withTurns {s : State} (h : Ready s) (q : Supply Turn) : Ready (withTurns q s) := by
  obtain ⟨⟨flags, conf, hi, hbz, fu, snd, ptr, idx, run, site⟩, hb, hf⟩ := h
  exact ⟨⟨flags, conf, hi, hbz, fu, snd, ptr, idx, run, site⟩, hb, hf⟩

end Sys2Proof.Machine
end

section
/-! PROOF. The two bus transactions that every sensor command is made of (41_sensor_protocol.md R151, R152): what the
whole of each does to the state, under a schedule without pauses. -/

namespace Sys2Proof.Machine

/-! ### Wire bytes -/

/-- R90's byte by its fields: the 7-bit address above the direction bit. -/
theorem addrByte_eq_append (p : Params) (d : Direction) : addrByte p d = p.devAddr ++ d.bit := by
  rw [addrByte, BitVec.append_def, BitVec.shiftLeftZeroExtend_eq, BitVec.setWidth'_eq]

theorem addrW_eq_wireAddrW (s : State) : addrW s.env.params = wireAddrW s := addrByte_eq_append _ .write

theorem addrR_eq_wireAddrR (s : State) : addrR s.env.params = wireAddrR s := addrByte_eq_append _ .read

/-! ### Answers and scheduling choices taken -/

theorem take_zero {α : Type} (q : Supply α) : q.take 0 = q := rfl

theorem look_take {α : Type} (free : Nat → α) (q : Supply α) (k j : Nat) :
    (q.take k).look free j = q.look free (k + j) := by
  simp [Supply.look, Supply.take, Nat.add_assoc]

/-- A list of whole micro-ops takes some number of scheduling choices. -/
theorem foldl_opDone_turns (ops : List MicroOp) (s : State) :
    ∃ n, (ops.foldl (fun s op => opDone op s) s).env.turns = s.env.turns.take n := by
  induction ops generalizing s with
  | nil => exact ⟨0, rfl⟩
  | cons op ops ih =>
    obtain ⟨k, -, hk⟩ := opDone_turns op s
    obtain ⟨n, hn⟩ := ih (opDone op s)
    exact ⟨k + n, by rw [List.foldl_cons, hn, hk, take_take]⟩

theorem withTurns_withoutTurns (s : State) : withTurns s.env.turns (withoutTurns s) = s := rfl

/-- A state is its scheduling choices and the rest of it. -/
theorem eq_of_withoutTurns_eq {s t : State} (h : withoutTurns s = withoutTurns t)
    (hturns : s.env.turns = t.env.turns) : s = t := by
  rw [← withTurns_withoutTurns s, ← withTurns_withoutTurns t, h, hturns]

/-! ### The two transactions -/

/-- The whole micro-program of one register write (R151). -/
theorem foldl_writeReg (s : State) (r v : Byte) (hph : s.phase = .idle) :
    ∃ n, (expandWriteReg s.env.params r v).foldl (fun s op => opDone op s) s = { s with
      seq := s.seq + 9, trace := s.trace ++ writeEvents s 0 r v, buf := some v, ackstat := s.ackAhead 2,
      env := envTaken n 3 0 s.env } := by
  obtain ⟨n, hn⟩ := foldl_opDone_turns (expandWriteReg s.env.params r v) s
  refine ⟨n, eq_of_withoutTurns_eq ?_ hn⟩
  simp [expandWriteReg, opDone, withoutTurns, takeTurns, takeAcks, emit, State.ackAhead, look_take, take_take,
    take_zero, writeEvents, envTaken, addrW_eq_wireAddrW, cmdByte, cmdBit, hph]

/-- The whole micro-program of one register read (R152). -/
theorem foldl_readReg (s : State) (r : Byte) (hph : s.phase = .idle) :
    ∃ n, (expandReadReg s.env.params r).foldl (fun s op => opDone op s) s = { s with
      seq := s.seq + 13, trace := s.trace ++ readEvents s 0 0 r, buf := some (s.byteAhead 0),
      rb := some (s.byteAhead 0), res := some ((0#8) ++ s.byteAhead 0), ackstat := s.ackAhead 2,
      env := envTaken n 3 1 s.env } := by
  obtain ⟨n, hn⟩ := foldl_opDone_turns (expandReadReg s.env.params r) s
  refine ⟨n, eq_of_withoutTurns_eq ?_ hn⟩
  simp [expandReadReg, opDone, withoutTurns, takeTurns, takeAcks, takeBytes, emit, State.ackAhead, State.byteAhead,
    look_take, take_take, readEvents, envTaken, addrW_eq_wireAddrW, addrR_eq_wireAddrR, cmdByte, cmdBit,
    zext16_eq_append, hph]

/-! ### The commands -/

/-- A sensor command begins with a start (R151 to R156). -/
theorem expand_sensor (p : Params) {i : Instr} (hs : isSensor i = true) : ∃ ops, expand p i = .uStart :: ops := by
  cases i
  case writeReg | readReg | read16 | readChannels | enable | disable => exact ⟨_, rfl⟩
  all_goals exact nomatch hs

/-- A sensor command that finds the bus idle is the fold of its micro-ops. -/
theorem exec_sensor {s : State} {i : Instr} (h : Ready s) (hi : s.init = true) (hph : s.phase = .idle)
    (ht : Prompt (turnsEnough i) s) (hs : isSensor i = true) :
    exec i s = .next (endCommand ((expand s.env.params i).foldl (fun s op => opDone op s)
      (beginCommand (encode i) (expand s.env.params i) s))) := by
  obtain ⟨ops, he⟩ := expand_sensor s.env.params hs
  have hchk : MicroOp.uStart.check s = none := by
    simp [MicroOp.check, MicroOp.isTransport, MicroOp.acceptedIn, hi, hph]
  exact exec_of_check_passes h he hchk ht

/-- `WRITE_REG` under a schedule without pauses (R151). -/
theorem exec_writeReg {s : State} (r v : Byte) (h : Ready s) (hi : s.init = true) (hph : s.phase = .idle)
    (ht : Prompt 11 s) :
    ∃ n, exec (.writeReg r v) s = .next { commandDone (.writeReg r v) 9 s with
      trace := s.trace ++ writeEvents s 0 r v, buf := some v, ackstat := s.ackAhead 2,
      env := envTaken n 3 0 s.env } := by
  obtain ⟨n, hn⟩ :=
    foldl_writeReg (beginCommand (encode (.writeReg r v)) (expandWriteReg s.env.params r v) s) r v hph
  exact ⟨n, (exec_sensor (i := .writeReg r v) h hi hph ht rfl).trans (congrArg (Host.Outcome.next ∘ endCommand) hn)⟩

/-- `READ_REG` under a schedule without pauses (R152). -/
theorem exec_readReg {s : State} (r : Byte) (h : Ready s) (hi : s.init = true) (hph : s.phase = .idle)
    (ht : Prompt 13 s) :
    ∃ n, exec (.readReg r) s = .next { commandDone (.readReg r) 13 s with
      trace := s.trace ++ readEvents s 0 0 r, buf := some (s.byteAhead 0), rb := some (s.byteAhead 0),
      res := some ((0#8) ++ s.byteAhead 0), ackstat := s.ackAhead 2, env := envTaken n 3 1 s.env } := by
  obtain ⟨n, hn⟩ := foldl_readReg (beginCommand (encode (.readReg r)) (expandReadReg s.env.params r) s) r hph
  exact ⟨n, (exec_sensor (i := .readReg r) h hi hph ht rfl).trans (congrArg (Host.Outcome.next ∘ endCommand) hn)⟩

end Sys2Proof.Machine
end

section
/-! PROOF. The reference peer (20_memory.md R72) at the events of the two bus transactions. -/

namespace Sys2Proof.Machine

/-- The events that a trace has gained. -/
theorem newEvents_of_append {s t : State} {es : List Event} (h : t.trace = s.trace ++ es) : newEvents s t = es := by
  rw [newEvents, h, List.drop_left]

@[simp] theorem wireAddrW_direction (s : State) : (wireAddrW s)[0] = false := by
  have h := directionOf_addrW s.env.params
  simpa [addrW_eq_wireAddrW, directionOf] using h

@[simp] theorem wireAddrR_direction (s : State) : (wireAddrR s)[0] = true := by
  have h := directionOf_addrR s.env.params
  simpa [addrR_eq_wireAddrR, directionOf] using h

/-- The fixture's pointer is the command byte without its top bit (R72, R92). -/
@[simp] theorem setWidth_commandByte (r : Byte) : (0x80#8 ||| r).setWidth 7 = r.setWidth 7 := by
  simp [BitVec.setWidth_or]

theorem reg_setReg (q : RefPeer) (i j : BitVec 7) (v : Byte) :
    (q.setReg i v).reg j = if j = i then v else q.reg j := by
  simp only [RefPeer.reg, RefPeer.setReg, Vector.getElem_set, BitVec.toNat_inj, eq_comm]

/-- One register write writes the register that the command byte selects. -/
theorem after_writeEvents (q : RefPeer) (s : State) (k : Nat) (r v : Byte) :
    q.after (writeEvents s k r v) = { q.setReg (r.setWidth 7) v with ptr := r.setWidth 7, expects := .nothing } := by
  simp [RefPeer.after, writeEvents, RefPeer.observe, RefPeer.take, RefPeer.setReg]

/-- One register read writes nothing but the fixture's pointer. -/
theorem after_readEvents (q : RefPeer) (s : State) (k j : Nat) (r : Byte) :
    q.after (readEvents s k j r) = { q with ptr := r.setWidth 7, expects := .nothing } := by
  simp [RefPeer.after, readEvents, RefPeer.observe, RefPeer.take]

/-- The answers in one register read are the fixture's if it acknowledges each byte sent and answers the register that
the command byte selects. -/
theorem answersAll_readEvents (q : RefPeer) (s : State) (k j : Nat) (r : Byte) :
    q.answersAll (readEvents s k j r) = true ↔
      s.ackAhead k = 0 ∧ s.ackAhead (k + 1) = 0 ∧ s.ackAhead (k + 2) = 0 ∧ s.byteAhead j = q.reg (r.setWidth 7) := by
  simp [readEvents, RefPeer.answersAll, RefPeer.answers, RefPeer.observe, RefPeer.take, RefPeer.reg]

end Sys2Proof.Machine
end

section
/-! PROOF. The statements on the engine, the schedule and the reference peer (20_memory.md). -/

namespace Sys2Proof.Proofs

open Sys2Proof.Machine

/-- Settles O39: the hold names the one step that can be enabled. -/
theorem oneEngineStepAtMost : Obligations.OneEngineStepAtMost :=
  fun _ _ _ => enabled_unique

/-- Settles O46: neither an agent's step nor a step of the host writes them. -/
theorem programIsNeverWritten : Obligations.ProgramIsNeverWritten :=
  fun _ _ => step_sameProgram

/-- Settles O50: the first micro-op's check does not read the schedule, and neither does what follows it, a fault or the
fold of the whole micro-ops. -/
theorem scheduleDoesNotShow : Obligations.ScheduleDoesNotShow := by
  intro i s t q h ht ht' hex
  obtain ⟨op, ops, he, -⟩ := expand_first s.env.params i
  have hchk : op.check (withTurns q s) = op.check s := by cases op <;> rfl
  cases hc : op.check s with
  | some c =>
    rw [exec_of_check_fails h he hc] at hex
    cases hex
    exact ⟨_, exec_of_check_fails (h.withTurns q) he (hchk.trans hc), rfl⟩
  | none =>
    rw [exec_of_check_passes h he hc ht] at hex
    cases hex
    refine ⟨_, exec_of_check_passes (h.withTurns q) he (hchk.trans hc) ht', ?_⟩
    exact withoutTurns_endCommand (withoutTurns_foldl_opDone _ (withoutTurns_beginCommand _ _ rfl))

/-- Settles O52: the one byte received is the fixture's answer. -/
theorem referencePeerRead : Obligations.ReferencePeerRead := by
  intro q r s h hi hph ht
  obtain ⟨n, hex⟩ := exec_readReg r h hi hph ht
  refine ⟨_, hex, ?_⟩
  rw [newEvents_of_append rfl, answersAll_readEvents, after_readEvents]
  rintro ⟨-, -, -, hbyte⟩
  rw [hbyte]
  exact ⟨rfl, fun _ => rfl⟩

/-- Settles O53: the one data byte sent is written where the command byte points. -/
theorem referencePeerWrite : Obligations.ReferencePeerWrite := by
  intro q r v s h hi hph ht
  obtain ⟨n, hex⟩ := exec_writeReg r v h hi hph ht
  refine ⟨_, hex, fun i => ?_⟩
  rw [newEvents_of_append rfl, after_writeEvents]
  exact reg_setReg q (r.setWidth 7) i v

/-- Settles O37: the four steps one by one; that an enabled step is the engine's is `engineStep_of_enabled`. -/
theorem engineCompletesConditions : Obligations.EngineCompletesConditions := by
  refine ⟨fun s => ⟨⟨?_, rfl⟩, ⟨?_, rfl⟩, ⟨?_, rfl⟩, ⟨?_, rfl⟩⟩, fun _ _ => engineStep_of_enabled⟩
  all_goals exact Bool.and_eq_true_iff

/-- Settles O38: the receive, the shift and the acknowledge clock; the invariant gives the byte in transmission. -/
theorem engineMovesBytes : Obligations.EngineMovesBytes := by
  refine fun s => ⟨⟨?_, rfl⟩, ⟨?_, rfl⟩, ⟨?_, ?_⟩, buf_of_ackClock_enabled⟩
  · exact Bool.and_eq_true_iff
  · simp [EngineAction.enabled, and_assoc]
  · simp [EngineAction.enabled, and_assoc]
  · intro b hb
    have hbyte : s.buf.getD (Config.unwrittenBuf s.trace.length) = b := by rw [hb, Option.getD_some]
    rw [EngineAction.perform, engineAckClock, hbyte]
    rfl

end Sys2Proof.Proofs
end

section
/-! PROOF. Command words (30_encoding.md R97 to R101): the three fields of a word, the words that match a row of the
opcode map, and the decoder's answer to legal fields and to all others. -/

namespace Sys2Proof

/-! ### The fields of a word -/

/-- The layout of R97 puts each field where it is read. -/
@[simp] theorem Fields.ofWord_toWord (f : Fields) : Fields.ofWord f.toWord = f := by
  obtain ⟨op, a, b⟩ := f
  have hop : (op ++ a ++ b).extractLsb' 16 8 = op := by
    rw [BitVec.extractLsb'_append_eq_of_le (by decide), BitVec.extractLsb'_append_eq_left]
  have ha : (op ++ a ++ b).extractLsb' 8 8 = a := by
    rw [BitVec.extractLsb'_append_eq_of_le (by decide), BitVec.extractLsb'_append_eq_right]
  have hb : (op ++ a ++ b).extractLsb' 0 8 = b := BitVec.extractLsb'_append_eq_right
  rw [Fields.toWord, Fields.ofWord, hop, ha, hb]

/-- The three fields are the whole word. -/
@[simp] theorem Fields.toWord_ofWord (w : Word) : (Fields.ofWord w).toWord = w := by
  have hupper : w.extractLsb' 16 8 ++ w.extractLsb' 8 8 = w.extractLsb' 8 16 :=
    BitVec.extractLsb'_append_extractLsb'_eq_extractLsb' rfl
  rw [Fields.toWord, Fields.ofWord, hupper]
  exact BitVec.extractLsb'_append_extractLsb' (w := 16)

theorem Fields.toWord_inj {f g : Fields} : f.toWord = g.toWord ↔ f = g :=
  ⟨fun h => by rw [← f.ofWord_toWord, h, g.ofWord_toWord], congrArg _⟩

/-! ### Rows -/

/-- A mask compares field by field (R98). -/
theorem Fields.toWord_and (f g : Fields) :
    f.toWord &&& g.toWord = toWord ⟨f.op &&& g.op, f.a &&& g.a, f.b &&& g.b⟩ := by
  rw [Fields.toWord, Fields.toWord, Fields.toWord, ← BitVec.and_append, ← BitVec.and_append]

/-- A row's match is its OP with both operand fields 0x00 (R98). -/
theorem match_eq_toWord (op : Byte) : (op ++ (0#16) : Word) = Fields.toWord ⟨op, 0, 0⟩ := by
  apply BitVec.eq_of_toNat_eq
  rw [Fields.toWord, BitVec.toNat_append, BitVec.toNat_append, BitVec.toNat_append]
  simp [← Nat.shiftLeft_add]

/-- The fields of a format's mask: all ones where the decoder compares (R98). -/
def Format.maskFields : Format → Fields
  | .n => ⟨0xFF, 0xFF, 0xFF⟩
  | .a => ⟨0xFF, 0, 0xFF⟩
  | .ab => ⟨0xFF, 0, 0⟩

theorem Format.mask_eq_toWord (format : Format) : format.mask = format.maskFields.toWord := by cases format <;> rfl

/-- A row's match and mask accept a word whose OP is the row's and whose must-be-zero fields are 0x00 (R97, R98). -/
theorem Row.matchesWord_iff (row : Row) (f : Fields) :
    row.matchesWord f.toWord = true ↔ row.op = f.op ∧ row.format.zeroesHold f = true := by
  obtain ⟨op, format, _⟩ := row
  have hones (x : Byte) : x &&& 255#8 = x := BitVec.and_allOnes
  rw [Row.matchesWord, beq_iff_eq, Format.mask_eq_toWord, Fields.toWord_and, match_eq_toWord, Fields.toWord_inj]
  cases format <;> simp [Format.maskFields, Format.zeroesHold, hones, eq_comm (a := op)]

/-- No two rows of the opcode map have the same OP (R98). -/
theorem opcodeMap_op_injective {row row' : Row} (h : row ∈ opcodeMap) (h' : row' ∈ opcodeMap) (hop : row.op = row'.op) :
    row = row' :=
  List.inj_on_of_nodup_map (f := Row.op) (by decide) h h' hop

/-- R97's legality, with the row's place in the opcode map left out. -/
theorem Fields.legal_iff_row (f : Fields) :
    f.legal = true ↔ ∃ row ∈ opcodeMap, row.op = f.op ∧ row.format.zeroesHold f = true := by
  rw [Fields.legal]
  cases hrow : opcodeMap.find? (fun row => row.op == f.op) with
  | none =>
    have hne := List.find?_eq_none.mp hrow
    simp only [Bool.false_eq_true, false_iff]
    rintro ⟨row, hmem, hop, -⟩
    exact hne row hmem (beq_iff_eq.mpr hop)
  | some row =>
    have hmem := List.mem_of_find?_eq_some hrow
    have hop : row.op = f.op := by simpa using List.find?_some hrow
    constructor
    · exact fun hz => ⟨row, hmem, hop, hz⟩
    · rintro ⟨row', hmem', hop', hz⟩
      rwa [opcodeMap_op_injective hmem hmem' (hop.trans hop'.symm)]

/-- R100's ranges: an unassigned OP, format N with a non-zero A or B, format A with a non-zero B. -/
theorem Fields.illegal_iff_ranges (f : Fields) :
    f.legal = false ↔
      (f.op.toNat = 0 ∨ (0x0A ≤ f.op.toNat ∧ f.op.toNat ≤ 0x0F) ∨ 0x16 ≤ f.op.toNat) ∨
        (((0x01 ≤ f.op.toNat ∧ f.op.toNat ≤ 0x07) ∨ f.op.toNat = 0x09 ∨ (0x13 ≤ f.op.toNat ∧ f.op.toNat ≤ 0x15)) ∧
          (f.a.toNat ≠ 0 ∨ f.b.toNat ≠ 0)) ∨
        ((f.op.toNat = 0x08 ∨ f.op.toNat = 0x11 ∨ f.op.toNat = 0x12) ∧ f.b.toNat ≠ 0) := by
  rw [← Bool.not_eq_true, Fields.legal_iff_row]
  simp only [opcodeMap, Format.zeroesHold, List.cons_append, List.nil_append, List.mem_cons, List.not_mem_nil, or_false,
    exists_eq_or_imp, exists_eq_left, Bool.and_eq_true, beq_iff_eq, ← BitVec.toNat_inj, BitVec.ofNat_eq_ofNat,
    BitVec.toNat_ofNat, Nat.reducePow, Nat.one_mod, Nat.zero_mod, Nat.reduceMod, and_true]
  omega

/-! ### The decoder -/

/-- The decoder's answer `d` to the fields `f` is the legal one: the instruction that has these fields, or a refusal
where they are not legal (R97, R100). -/
def Fields.AnsweredBy (f : Fields) (d : Decoded) : Prop :=
  (f.legal = true ∧ ∃ i, d = .command i ∧ i.fields = f) ∨ (f.legal = false ∧ ∃ r, d = .illegal r)

/-- Format N refuses a non-zero A or B. -/
theorem Fields.answeredBy_decodeN {f : Fields} {i : Instr} (hl : f.legal = Format.n.zeroesHold f)
    (hi : i.fields = ⟨f.op, 0, 0⟩) : f.AnsweredBy (decodeN f i) := by
  obtain ⟨op, a, b⟩ := f
  by_cases ha : a = 0#8
  · by_cases hb : b = 0#8
    · subst ha hb
      exact .inl ⟨hl, i, rfl, hi⟩
    · exact .inr ⟨by simp [hl, Format.zeroesHold, hb], _, (if_pos ha).trans (if_neg hb)⟩
  · exact .inr ⟨by simp [hl, Format.zeroesHold, ha], _, if_neg ha⟩

/-- Format A refuses a non-zero B. -/
theorem Fields.answeredBy_decodeA {f : Fields} {i : Byte → Instr} (hl : f.legal = Format.a.zeroesHold f)
    (hi : ∀ x, (i x).fields = ⟨f.op, x, 0⟩) : f.AnsweredBy (decodeA f i) := by
  obtain ⟨op, a, b⟩ := f
  by_cases hb : b = 0#8
  · subst hb
    exact .inl ⟨hl, i a, rfl, hi a⟩
  · exact .inr ⟨by simp [hl, Format.zeroesHold, hb], _, if_neg hb⟩

/-- Format AB refuses nothing. -/
theorem Fields.answeredBy_decodeAB {f : Fields} {i : Byte → Byte → Instr} (hl : f.legal = Format.ab.zeroesHold f)
    (hi : ∀ x y, (i x y).fields = ⟨f.op, x, y⟩) : f.AnsweredBy (decodeAB f i) :=
  .inl ⟨hl, i f.a f.b, rfl, hi f.a f.b⟩

theorem byte_eq_ofNat {b : Byte} {n : Nat} (h : b.toNat = n) : b = BitVec.ofNat 8 n := by
  rw [← h, BitVec.ofNat_toNat, BitVec.setWidth_eq]

/-- Everything the decoder can answer (R97 to R100), by the rows of R98. -/
theorem Fields.answeredBy_decodeFields (f : Fields) : f.AnsweredBy (decodeFields f) := by
  obtain ⟨op, a, b⟩ := f
  unfold decodeFields
  split
  case h_16 =>
    refine .inr ⟨?_, _, rfl⟩
    rw [Fields.illegal_iff_ranges]
    simp only [imp_false] at *
    omega
  all_goals
    rename_i hop
    obtain rfl := byte_eq_ofNat hop
  case h_8 | h_11 | h_12 => exact answeredBy_decodeA rfl fun _ => rfl
  case h_10 => exact answeredBy_decodeAB rfl fun _ _ => rfl
  all_goals exact answeredBy_decodeN rfl rfl

/-- Everything that decoding a word can answer: the one instruction that the word encodes, or a refusal. -/
theorem decode_cases (w : Word) :
    (legal w = true ∧ ∃ i, decode w = .command i ∧ encode i = w) ∨ (legal w = false ∧ ∃ r, decode w = .illegal r) := by
  obtain ⟨hl, i, hd, hi⟩ | h := (Fields.ofWord w).answeredBy_decodeFields
  · exact .inl ⟨hl, i, hd, by rw [encode, hi, Fields.toWord_ofWord]⟩
  · exact .inr h

/-- The laws of the instructions one by one, as a law of every instruction. -/
theorem legalStatement : ∀ i : Instr, Laws.Legal.Statement i
  | .init => Laws.Legal.init
  | .start => Laws.Legal.start
  | .restart => Laws.Legal.restart
  | .stop => Laws.Legal.stop
  | .ack => Laws.Legal.ack
  | .nack => Laws.Legal.nack
  | .idle => Laws.Legal.idle
  | .send b => Laws.Legal.send b
  | .read => Laws.Legal.read
  | .writeReg r v => Laws.Legal.writeReg r v
  | .readReg r => Laws.Legal.readReg r
  | .read16 r => Laws.Legal.read16 r
  | .readChannels => Laws.Legal.readChannels
  | .enable => Laws.Legal.enable
  | .disable => Laws.Legal.disable

@[simp] theorem decode_encode (i : Instr) : decode (encode i) = .command i := by
  obtain ⟨-, hdecode⟩ := legalStatement i
  rw [decode, encode, Fields.ofWord_toWord, hdecode]

end Sys2Proof
end

section
/-! PROOF. The host's step on an illegal word (30_encoding.md R100), and the bytes on the wire (R90 to R94). -/

namespace Sys2Proof.Machine

/-- The host issues an illegal word (R40, R100). -/
theorem step_of_illegal {s : State} {w : Word} {r : Reject} (hb : s.busy = false) (hf : s.fault = none)
    (hd : dueRead s = none) (hw : fetchWord s = some w) (hr : decode w = .illegal r) :
    step s = .next (raiseIllegal w s) := by
  simp [step, hb, hf, hd, hw, hr]

/-! ### Wire bytes -/

/-- Two bytes or bit fields side by side, as numbers. -/
theorem toNat_append_eq_add {m n : Nat} (x : BitVec m) (y : BitVec n) : (x ++ y).toNat = 2 ^ n * x.toNat + y.toNat := by
  rw [BitVec.toNat_append, ← Nat.shiftLeft_add_eq_or_of_lt y.isLt, Nat.shiftLeft_eq, Nat.mul_comm]

/-- R90's byte as a number. -/
theorem toNat_addrByte (p : Params) (d : Direction) : (addrByte p d).toNat = 2 * p.devAddr.toNat + d.bit.toNat := by
  rw [addrByte_eq_append, toNat_append_eq_add, pow_one]

/-- R91: bit 0 alone of a byte sent in phase `ADDR` gives the next phase. -/
theorem phaseAfterSend_addr (b : Byte) : phaseAfterSend b .addr = if b.getLsbD 0 then .rxr else .txw := by
  rw [phaseAfterSend, if_pos rfl, directionOf]
  split <;> rfl

/-- The command byte is its register address with bit 7 set (R92). -/
theorem getLsbD_cmdByte (r : Byte) (i : Nat) : (cmdByte r).getLsbD i = (decide (i = 7) || r.getLsbD i) := by
  have hbit : cmdBit = BitVec.twoPow 8 7 := rfl
  rw [cmdByte, hbit, BitVec.getLsbD_or, BitVec.getLsbD_twoPow]
  simp [eq_comm]

/-- A register address of 0x80 or above is its own command byte (R92). -/
theorem cmdByte_of_ge {r : Byte} (h : 0x80 ≤ r.toNat) : cmdByte r = r := by
  have htop : r.getLsbD 7 = true := by
    rw [← r.msb_eq_getLsbD_last, r.msb_eq_decide]
    exact decide_eq_true h
  refine BitVec.eq_of_getLsbD_eq fun i _ => ?_
  rw [getLsbD_cmdByte]
  by_cases hi : i = 7
  · simp [hi, htop]
  · simp [hi]

/-- Bit 7 of a register address does not show in its command byte (R92). -/
theorem cmdByte_alias (r : Byte) : cmdByte (r &&& 0x7F#8) = cmdByte r := by
  have hmask : (0x7F#8) = ~~~BitVec.twoPow 8 7 := rfl
  refine BitVec.eq_of_getLsbD_eq fun i hi => ?_
  rw [getLsbD_cmdByte, getLsbD_cmdByte, hmask, BitVec.getLsbD_and, BitVec.getLsbD_not, BitVec.getLsbD_twoPow]
  by_cases h : i = 7
  · simp [h]
  · simp [h, hi, Ne.symm h]

/-- R94's value by its halves. -/
theorem compose16_eq_append (hi lo : Byte) : compose16 hi lo = hi ++ lo := by
  rw [compose16, BitVec.append_def, BitVec.shiftLeftZeroExtend_eq, BitVec.setWidth'_eq]

/-- `uCOMPOSE` on written halves. -/
theorem issue_uCompose {s : State} {hi lo : Byte} (n : Nat) (hhi : s.hi = some hi) (hlo : s.lo = some lo) :
    issue .uCompose n s = { s with res := some (compose16 hi lo) } := by
  have hcompose : composeRegs s.hi s.lo = some (compose16 hi lo) := by rw [hhi, hlo, composeRegs]
  rw [← hcompose]
  rfl

/-- The high byte's address as a number (R94). -/
theorem toNat_highReg (r : Byte) : (highReg r).toNat = (r.toNat + 1) % 256 := by
  rw [highReg, BitVec.toNat_add]
  rfl

end Sys2Proof.Machine
end

section
/-! PROOF. The statements on encodings (30_encoding.md). -/

namespace Sys2Proof.Proofs

open Sys2Proof.Machine

/-- Settles O2: the fields of an encoded instruction are read back, and the decoder takes them for it. -/
theorem decodeOfEncode : Obligations.DecodeOfEncode := decode_encode

/-- Settles O3, by the two answers of the decoder. -/
theorem encodeOfDecode : Obligations.EncodeOfDecode := by
  intro w i h
  obtain ⟨-, j, hd, hj⟩ | ⟨-, r, hd⟩ := decode_cases w <;> cases hd.symm.trans h
  exact hj

/-- Settles O4: the decoder by its two answers, the masks by the legal rows. -/
theorem legalWordsAreTheTables : Obligations.LegalWordsAreTheTables := by
  intro w
  constructor
  · obtain ⟨hl, i, hd, -⟩ | ⟨hl, r, hd⟩ := decode_cases w <;> simp [hl, hd]
  · rw [legal, Fields.legal_iff_row]
    simp only [← Row.matchesWord_iff, Fields.toWord_ofWord]

/-- Settles O5: the decoder refuses the words that are not legal, and those are R100's ranges. -/
theorem illegalWords : Obligations.IllegalWords := by
  intro w op a b
  constructor
  · have hlegal : (∃ r, decode w = .illegal r) ↔ legal w = false := by
      obtain ⟨hl, i, hd, -⟩ | ⟨hl, r, hd⟩ := decode_cases w <;> simp [hl, hd]
    exact hlegal.trans (Fields.ofWord w).illegal_iff_ranges
  · intro r s hr hb hf hd hw
    exact step_of_illegal hb hf hd hw hr

/-- Settles O9: the halves stand side by side, and only 0xFF + 1 leaves the byte. -/
theorem sixteenBitComposition : Obligations.SixteenBitComposition := by
  refine ⟨fun _ _ => rfl, fun _ n _ _ => issue_uCompose n, fun hi lo => ?_, toNat_highReg, fun r => ?_⟩
  · rw [compose16_eq_append]
    exact ⟨rfl, toNat_append_eq_add hi lo, BitVec.extractLsb'_append_eq_left, BitVec.extractLsb'_append_eq_right⟩
  · have hff : (0xFF : Byte).toNat = 255 := rfl
    rw [toNat_highReg, ← BitVec.toNat_inj, hff]
    omega

/-- Settles O1: each legal word is its command's encoding, and each illegal one is refused at its first wrong field. -/
theorem tableWordsDecode : Obligations.TableWordsDecode :=
  ⟨decode_encode .init, decode_encode .start, decode_encode (.send 0x52), decode_encode .read,
    decode_encode (.writeReg 0xFF 0x7F), decode_encode (.readReg 0x01), decode_encode (.read16 0x14),
    decode_encode .disable, rfl, rfl, rfl⟩

/-- Settles O6: the layout is `addrByte_eq_append`, and the expansions have the byte in its place. -/
theorem addressByte : Obligations.AddressByte := by
  refine ⟨fun _ _ _ => ⟨rfl, rfl, rfl⟩, fun p => ⟨toNat_addrByte p .write, toNat_addrByte p .read,
    addrByte_eq_append p .write, addrByte_eq_append p .read, fun h => ?_⟩⟩
  rw [addrW, addrR, addrByte, addrByte, h]
  exact ⟨rfl, rfl⟩

/-- Settles O7, by the two values of bit 0. -/
theorem directionIsBitZero : Obligations.DirectionIsBitZero := by
  intro b
  rw [MicroOp.phaseAfter, phaseAfterSend_addr]
  exact ⟨fun h => by rw [h]; rfl, fun h => by rw [h]; rfl, rfl⟩

/-- Settles O8: bit 7 is set, and the other bits are the register address's. -/
theorem commandByte : Obligations.CommandByte :=
  ⟨fun _ _ _ => ⟨rfl, rfl⟩, fun r => ⟨rfl, cmdByte_of_ge, cmdByte_alias r⟩, rfl, rfl, rfl, rfl, rfl, rfl, rfl⟩

end Sys2Proof.Proofs
end

section
/-! PROOF. What a run of the block and a step of the machine cannot tell of the peer's acknowledge bits (40_transport.md
R128, R130): each operation takes states that differ only in them to states that differ only in them. -/

namespace Sys2Proof.Machine

/-! ### The trace without its acknowledge bits -/

/-- The event without the peer's answer. -/
def Event.withoutAck : Event → Event
  | .tx b _ => .tx b 0
  | e => e

theorem withoutAcks_trace (s : State) : (withoutAcks s).trace = s.trace.map Event.withoutAck :=
  List.map_congr_left fun e _ => by cases e <;> rfl

/-- An event is appended to the trace without acknowledge bits as itself without its own. -/
theorem withoutAcks_emit (e : Event) (s : State) :
    withoutAcks (emit e s) = emit e.withoutAck (withoutAcks s) := by
  have htrace : (withoutAcks (emit e s)).trace = (withoutAcks s).trace ++ [e.withoutAck] := by
    rw [withoutAcks_trace, withoutAcks_trace, emit_trace, List.map_append, List.map_singleton]
  calc withoutAcks (emit e s) = { withoutAcks s with trace := (withoutAcks (emit e s)).trace } := rfl
    _ = emit e.withoutAck (withoutAcks s) := by rw [htrace]; rfl

/-! ### The sequencer -/

theorem check_withoutAcks (op : MicroOp) (s : State) : op.check (withoutAcks s) = op.check s := by
  cases op <;> rfl

/-- No micro-op reads an acknowledge bit at its issue. -/
theorem withoutAcks_effect (op : MicroOp) (s : State) : withoutAcks (op.effect s) = op.effect (withoutAcks s) := by
  cases op
  case uSend b =>
    have hcollides : (withoutAcks s).collides = s.collides := rfl
    simp only [MicroOp.effect, issueSend, writeBuf, hcollides]
    split <;> rfl
  case uDelay k => exact withoutAcks_emit (.delay k) s
  all_goals rfl

theorem withoutAcks_issue (op : MicroOp) (n : Nat) (s : State) :
    withoutAcks (issue op n s) = issue op n (withoutAcks s) := by
  simp only [issue, check_withoutAcks]
  cases op.check s with
  | some c => rfl
  | none => exact withoutAcks_effect op s

theorem withoutAcks_post (w : WaitState) (s : State) : withoutAcks (post w s) = post w (withoutAcks s) := by
  cases w <;> rfl

/-- No condition of a hold reads an acknowledge bit (R42). -/
theorem cond_withoutAcks (w : WaitState) (s : State) : (withoutAcks s).cond w = s.cond w := by
  cases w <;> rfl

/-- The sequencer does the same whatever the acknowledge bits are. -/
theorem sequencerStep_withoutAcks (s : State) :
    sequencerStep (withoutAcks s) = (sequencerStep s).map withoutAcks := by
  by_cases hidle : s.busy = false ∨ s.fault ≠ none
  · rw [sequencerStep_eq_none hidle, sequencerStep_eq_none (s := withoutAcks s) hidle, Option.map_none]
  obtain ⟨hb, hf⟩ : s.busy = true ∧ s.fault = none := by simpa using hidle
  by_cases hw : s.wst = .none
  · cases hop : s.mp[s.seq]? with
    | some op =>
      rw [sequencerStep_of_next hb hf hw hop, sequencerStep_of_next (s := withoutAcks s) hb hf hw hop, Option.map_some,
        withoutAcks_issue]
      rfl
    | none =>
      rw [sequencerStep_of_end hb hf hw hop, sequencerStep_of_end (s := withoutAcks s) hb hf hw hop]
      rfl
  · rw [sequencerStep_of_held hb hf rfl hw, sequencerStep_of_held (s := withoutAcks s) (w := s.wst) hb hf rfl hw,
      cond_withoutAcks]
    split
    · rw [Option.map_some, withoutAcks_post]
    · rfl

/-- Of two states that differ only in the acknowledge bits, both have a sequencer step or neither has. -/
theorem sequencerStep_withoutAcks_cases {s s' : State} (h : withoutAcks s = withoutAcks s') :
    (sequencerStep s = none ∧ sequencerStep s' = none) ∨
      ∃ t t', sequencerStep s = some t ∧ sequencerStep s' = some t' ∧ withoutAcks t = withoutAcks t' := by
  have hmap : (sequencerStep s).map withoutAcks = (sequencerStep s').map withoutAcks := by
    rw [← sequencerStep_withoutAcks, h, sequencerStep_withoutAcks]
  cases hs : sequencerStep s with
  | none =>
    rw [hs, Option.map_none, eq_comm, Option.map_eq_none_iff] at hmap
    exact .inl ⟨rfl, hmap⟩
  | some t =>
    rw [hs, Option.map_some, eq_comm, Option.map_eq_some_iff] at hmap
    obtain ⟨t', hs', ht⟩ := hmap
    exact .inr ⟨t, t', rfl, hs', ht.symm⟩

/-! ### The engine -/

/-- The acknowledge clock draws the peer's answer and writes it to `ackstat` and the trace alone (R68). -/
theorem withoutAcks_engineAckClock (s : State) :
    withoutAcks (engineAckClock s) =
      { emit (.tx (s.buf.getD (Config.unwrittenBuf s.trace.length)) 0) (withoutAcks s) with tip := false } :=
  congrArg (fun t : State => { t with tip := false })
    (withoutAcks_emit (.tx (s.buf.getD (Config.unwrittenBuf s.trace.length)) (s.ackAhead 0)) s)

/-- Every other engine step does the same whatever the acknowledge bits are (R63 to R69). -/
theorem withoutAcks_perform {a : EngineAction} (ha : a ≠ .ackClock) (s : State) :
    withoutAcks (a.perform s) = a.perform (withoutAcks s) := by
  cases a
  case start => exact congrArg (fun t : State => { t with sen := false }) (withoutAcks_emit .start s)
  case restart => exact congrArg (fun t : State => { t with rsen := false }) (withoutAcks_emit .restart s)
  case stop => exact congrArg (fun t : State => { t with pen := false }) (withoutAcks_emit .stop s)
  case receive =>
    exact congrArg (fun t : State => { t with buf := some (s.byteAhead 0), bf := true, rcen := false })
      (withoutAcks_emit (.rx (s.byteAhead 0)) (takeBytes 1 s))
  case shift => rfl
  case ackClock => exact absurd rfl ha
  case ackSequence =>
    have hbit : (if s.ackdt = bitAck then Event.mack else .mnack).withoutAck =
        if s.ackdt = bitAck then .mack else .mnack := by
      split <;> rfl
    have hemit := withoutAcks_emit (if s.ackdt = bitAck then .mack else .mnack) s
    rw [hbit] at hemit
    exact congrArg (fun t : State => { t with acken := false }) hemit

/-- What an engine step does to the rest of the state is decided by the rest of the state. -/
theorem withoutAcks_perform_congr (a : EngineAction) {s s' : State} (h : withoutAcks s = withoutAcks s') :
    withoutAcks (a.perform s) = withoutAcks (a.perform s') := by
  by_cases ha : a = .ackClock
  · subst ha
    have hbuf : s.buf = s'.buf := (congrArg State.buf h :)
    have hlen : s.trace.length = s'.trace.length := by
      simpa only [withoutAcks_trace, List.length_map] using congrArg (fun t => t.trace.length) h
    simp only [EngineAction.perform, withoutAcks_engineAckClock, hbuf, hlen, h]
  · rw [withoutAcks_perform ha, withoutAcks_perform ha, h]

/-! ### The run of the block -/

/-- What a turn leads to, without the acknowledge bits. -/
def TurnResult.withoutAcks : TurnResult → TurnResult
  | .went s => .went (Machine.withoutAcks s)
  | .rested s => .rested (Machine.withoutAcks s)

theorem withoutAcks_contestedTurn (a : EngineAction) {s s' : State} (h : withoutAcks s = withoutAcks s') :
    (contestedTurn a s).withoutAcks = (contestedTurn a s').withoutAcks := by
  have hturn : s.turnAhead 0 = s'.turnAhead 0 := congrArg (fun t => t.turnAhead 0) h
  have h' : withoutAcks (takeTurns 1 s) = withoutAcks (takeTurns 1 s') := congrArg (takeTurns 1) h
  have hwent := congrArg TurnResult.went (withoutAcks_perform_congr a h')
  unfold contestedTurn
  rw [← hturn]
  cases s.turnAhead 0 with
  | pause => exact congrArg TurnResult.rested h'
  | engineFirst => exact hwent
  | sequencerFirst =>
    obtain ⟨hs, hs'⟩ | ⟨t, t', hs, hs', ht⟩ := sequencerStep_withoutAcks_cases h' <;> simp only [hs, hs']
    · exact hwent
    · exact congrArg TurnResult.went ht

theorem withoutAcks_blockTurn {s s' : State} (h : withoutAcks s = withoutAcks s') :
    (blockTurn s).withoutAcks = (blockTurn s').withoutAcks := by
  have hb : s.busy = s'.busy := (congrArg State.busy h :)
  have hf : s.fault = s'.fault := (congrArg State.fault h :)
  have hact : engineAction s = engineAction s' := (congrArg engineAction h :)
  unfold blockTurn
  rw [← hb, ← hf, ← hact]
  split
  · exact congrArg TurnResult.rested h
  · cases engineAction s with
    | some a => exact withoutAcks_contestedTurn a h
    | none =>
      obtain ⟨hs, hs'⟩ | ⟨t, t', hs, hs', ht⟩ := sequencerStep_withoutAcks_cases h <;> simp only [hs, hs']
      · exact congrArg TurnResult.rested h
      · exact congrArg TurnResult.went ht

theorem withoutAcks_runTurns (n : Nat) {s s' : State} (h : withoutAcks s = withoutAcks s') :
    withoutAcks (runTurns n s) = withoutAcks (runTurns n s') := by
  induction n generalizing s s' with
  | zero => exact h
  | succ n ih =>
    have hturn := withoutAcks_blockTurn h
    unfold runTurns
    cases hs : blockTurn s <;> cases hs' : blockTurn s' <;> rw [hs, hs'] at hturn
    case went.went => exact ih (TurnResult.went.inj hturn)
    case rested.rested => exact TurnResult.rested.inj hturn
    case went.rested | rested.went => exact nomatch hturn

/-- The run of the block takes states that differ only in the acknowledge bits to such states. -/
theorem withoutAcks_runBlock {s s' : State} (h : withoutAcks s = withoutAcks s') :
    withoutAcks (runBlock s) = withoutAcks (runBlock s') := by
  have hbound : turnBound s = turnBound s' := (congrArg turnBound h :)
  rw [runBlock, runBlock, hbound]
  exact withoutAcks_runTurns _ h

/-! ### The host -/

theorem withoutAcks_hostRead (r : ResultReg) (s : State) :
    withoutAcks (hostRead r s) = hostRead r (withoutAcks s) := by
  have hresult : (withoutAcks s).result r = s.result r := rfl
  cases hr : s.result r with
  | none => rw [hostRead_of_unwritten hr, hostRead_of_unwritten (hresult.trans hr)]; rfl
  | some v => rw [hostRead_of_written hr, hostRead_of_written (hresult.trans hr)]; rfl

/-- With no read due and no command left the host waits (R217; log 3). -/
theorem step_of_waiting {s : State} (hb : s.busy = false) (hf : s.fault = none) (hd : dueRead s = none)
    (hw : fetchWord s = none) : step s = .next s := by
  simp [step, hb, hf, hd, hw]

/-- A step takes states that differ only in the acknowledge bits to such states (R130, R215). -/
theorem withoutAcks_step {s s' t : State} (h : withoutAcks s = withoutAcks s') (hst : step s = .next t) :
    ∃ t', step s' = .next t' ∧ withoutAcks t = withoutAcks t' := by
  have hb : s'.busy = s.busy := (congrArg State.busy h).symm
  have hf : s'.fault = s.fault := (congrArg State.fault h).symm
  have hd : dueRead s' = dueRead s := (congrArg dueRead h).symm
  have hw : fetchWord s' = fetchWord s := (congrArg fetchWord h).symm
  obtain ⟨gf, ⟨gb, rfl⟩ | ⟨gb, hhost⟩⟩ := step_cases hst
  · exact ⟨_, step_of_busy (hb.trans gb) (hf.trans gf), withoutAcks_runBlock h⟩
  replace hb := hb.trans gb
  replace hf := hf.trans gf
  obtain ⟨r, gd, rfl⟩ | ⟨gd, gw, rfl⟩ | ⟨w, i, gd, gw, hi, rfl⟩ | ⟨w, r, gd, gw, hi, rfl⟩ := hhost
  · refine ⟨_, step_of_dueRead hb hf (hd.trans gd), ?_⟩
    rw [withoutAcks_hostRead, h, withoutAcks_hostRead]
  · exact ⟨_, step_of_waiting hb hf (hd.trans gd) (hw.trans gw), h⟩
  · refine ⟨_, (step_of_command hb hf (hd.trans gd) (hw.trans gw) hi).trans (exec_eq_runBlock i s'), ?_⟩
    have hparams : s.env.params = s'.env.params := congrArg (fun t => t.env.params) h
    rw [← hparams]
    exact withoutAcks_runBlock (congrArg (beginCommand (encode i) (expand s.env.params i)) h)
  · exact ⟨_, step_of_illegal hb hf (hd.trans gd) (hw.trans gw) hi, congrArg (raiseIllegal w) h⟩

end Sys2Proof.Machine
end

section
/-! PROOF. A transport command under a schedule without pauses is its one micro-op (40_transport.md R120 to R129). -/

namespace Sys2Proof.Machine

/-! ### The checks and the branches of an issue -/

/-- After `INIT` a micro-op passes its checks in the phases that accept it (R120). -/
theorem check_of_accepted {op : MicroOp} {s : State} (hi : s.init = true) (hne : op ≠ .uInit)
    (hacc : op.acceptedIn s.phase = true) : op.check s = none := by
  cases op
  case uInit => exact absurd rfl hne
  all_goals simp [MicroOp.check, hi, hacc]

theorem uSend_acceptedIn_iff (b : Byte) (ph : Phase) :
    (MicroOp.uSend b).acceptedIn ph = true ↔ ph = .addr ∨ ph = .txw := by
  cases ph <;> simp [MicroOp.acceptedIn]

/-- The phase that a byte leads to (R91, R128). -/
theorem phaseAfterSend_eq (b : Byte) (ph : Phase) :
    phaseAfterSend b ph = if ph = .addr ∧ b.getLsbD 0 = true then .rxr else .txw := by
  by_cases hph : ph = .addr
  · subst hph
    simp only [phaseAfterSend_addr, true_and]
  · simp [phaseAfterSend, hph]

/-- A byte collides while a condition is armed, or a byte is in transfer (R28, R128). -/
theorem collides_iff (s : State) :
    s.collides = true ↔ s.sen = true ∨ s.rsen = true ∨ s.pen = true ∨ s.rcen = true ∨ s.acken = true ∨ s.tip = true ∨
      s.bf = true := by
  simp only [State.collides, State.conditionArmed, Bool.or_eq_true, or_assoc]

/-! ### The commands -/

/-- A block that has begun a command stands at its first micro-op, once `INIT` has run. -/
theorem Ready.atIssue {s : State} (h : Ready s) (hi : s.init = true) (w : Word) (mp : List MicroOp) :
    AtIssue (beginCommand w mp s) :=
  ⟨rfl, h.fault, rfl, h.inv.quiescent_of_not_busy h.busy, hi, h.inv.master hi⟩

/-- A command of one micro-op that its phase accepts is that micro-op as a whole. -/
theorem exec_single {s : State} (i : Instr) (op : MicroOp) (h : Ready s) (hi : s.init = true)
    (he : expand s.env.params i = [op]) (hne : op ≠ .uInit) (hacc : op.acceptedIn s.phase = true)
    (ht : Prompt (turnsEnough i) s) :
    exec i s = .next (endCommand (opDone op (beginCommand (encode i) [op] s))) := by
  rw [exec_of_check_passes h he (check_of_accepted hi hne hacc) ht, he]
  rfl

/-- A start that is postponed leaves the sequencer held, with the start armed (R122, R186). -/
theorem runBlock_start_pause {s : State} (h : AtIssue s) (hop : s.mp[s.seq]? = some .uStart)
    (hph : s.phase = .idle) (ht : s.turnAhead 0 = .pause) :
    runBlock s = takeTurns 1 (issueStart { s with seq := s.seq + 1 }) := by
  have hact : engineAction (issueStart { s with seq := s.seq + 1 }) = some .start :=
    List.find?_cons_of_pos h.master
  rw [runBlock_effect h hop (by simp) (by simp [MicroOp.acceptedIn, hph])]
  exact runBlock_pause (s := issueStart { s with seq := s.seq + 1 }) h.busy h.fault hact ht

end Sys2Proof.Machine
end

section
/-! PROOF. The statements on the transport (40_transport.md). -/

namespace Sys2Proof.Proofs

open Sys2Proof.Machine

/-- Settles O49: a step takes states that differ only in the acknowledge bits to such states. -/
theorem acknowledgeBitsAreNeverRead : Obligations.AcknowledgeBitsAreNeverRead :=
  fun _ _ _ => withoutAcks_step

/-- Settles O20: the first `INIT` is its one micro-op, which emits nothing. -/
theorem initCompletes : Obligations.InitCompletes :=
  fun _ h hi => exec_init h hi

/-- Settles O21: each command is its one micro-op, accepted in the phases that the statement names. -/
theorem conditionsComplete : Obligations.ConditionsComplete := by
  refine fun s h hi ht => ⟨fun hph => ?_, fun hph => ?_, fun hph => ?_⟩
  · exact exec_single .start .uStart h hi rfl (by simp) (by simp [MicroOp.acceptedIn, hph]) ht
  · exact exec_single .restart .uRestart h hi rfl (by simp) (by simpa [MicroOp.acceptedIn, or_assoc] using hph) ht
  · have hacc : MicroOp.uStop.acceptedIn s.phase = true := by
      cases hs : s.phase <;> simp [MicroOp.acceptedIn, hs] at hph ⊢
    exact exec_single .stop .uStop h hi rfl (by simp) hacc ht

/-- Settles O22: each command is its one micro-op, accepted after a received byte. -/
theorem acknowledgesComplete : Obligations.AcknowledgesComplete := by
  intro s h hi hph ht
  exact ⟨exec_single .ack .uAck h hi rfl (by simp) (by simp [MicroOp.acceptedIn, hph]) ht,
    exec_single .nack .uNack h hi rfl (by simp) (by simp [MicroOp.acceptedIn, hph]) ht⟩

/-- Settles O23: `uIDLE` is accepted in every phase and arms nothing. -/
theorem idleCompletes : Obligations.IdleCompletes :=
  fun _ h hi => exec_single .idle .uIdle h hi rfl (by simp) rfl (fun k hk => absurd hk (Nat.not_lt_zero k))

/-- Settles O24: the schedule decides how many choices the byte takes, and nothing else. -/
theorem sendCompletes : Obligations.SendCompletes := by
  intro b s h hi hph ht
  refine ⟨sendTurns s, ?_⟩
  rw [exec_single (.send b) (.uSend b) h hi rfl (by simp) ((uSend_acceptedIn_iff b s.phase).mpr hph) ht,
    ← phaseAfterSend_eq]
  rfl

/-- Settles O25: the byte received, moved on to `RB` and `RES` at the end of the hold. -/
theorem readCompletes : Obligations.ReadCompletes := by
  intro s h hi hph ht
  rw [exec_single .read .uRead h hi rfl (by simp) (by simp [MicroOp.acceptedIn, hph]) ht, ← zext16_eq_append]
  rfl

/-- Settles O40: the engine's first scheduling choice comes when the start is armed. -/
theorem startIsHeldUntilTheEngineActs : Obligations.StartIsHeldUntilTheEngineActs := by
  intro s h hi hph ht
  rw [exec_eq_runBlock]
  exact congrArg Host.Outcome.next (runBlock_start_pause (h.atIssue hi _ _) rfl hph ht)

/-- Settles O36: the write of `BUF` takes its collision branch. -/
theorem writeCollision : Obligations.WriteCollision := by
  intro b n s hi hph hflags
  have hwrite : writeBuf b s = { s with wcol := true } := if_pos ((collides_iff s).mpr hflags)
  rw [issue_effect n hi (by simp) ((uSend_acceptedIn_iff b s.phase).mpr hph), MicroOp.effect, issueSend, hwrite,
    phaseAfterSend_eq]

end Sys2Proof.Proofs
end

section
/-! PROOF. A sensor command leaves the bus idle at its end, however it was delayed (41_sensor_protocol.md R158). -/

namespace Sys2Proof.Machine

theorem encode_injective {i j : Instr} (h : encode i = encode j) : i = j :=
  Decoded.command.inj ((decode_encode i).symm.trans ((congrArg decode h).trans (decode_encode j)))

/-- The command `i` is under way in an invariant state, or is over with the bus idle. -/
def IdleAtEnd (i : Instr) (s : State) : Prop :=
  BlockInv s ∧ s.cur = some (encode i) ∧ (s.busy = false → s.phase = .idle)

/-- Where a sensor command's micro-program is used up the bus is idle: the invariant's walk has come to its end. -/
theorem phase_at_end {s : State} {i : Instr} (h : BlockInv s) (hs : isSensor i = true) (hcur : s.cur = some (encode i))
    (hb : s.busy = true) (hf : s.fault = none) (hop : s.mp[s.seq]? = none) : s.phase = .idle := by
  obtain ⟨j, hj, hmp, hwalk⟩ := h.running hb
  obtain rfl : i = j := encode_injective (Option.some.inj (hcur.symm.trans hj))
  have hlen : s.mp.length ≤ s.seq := List.getElem?_eq_none_iff.mp hop
  obtain ⟨op, ops, he, -⟩ := expand_first s.env.params i
  have hseq : 0 < s.seq := by
    have : 0 < s.mp.length := by rw [hmp, he]; exact Nat.succ_pos _
    omega
  obtain ⟨-, ph, hph, hidle⟩ := hwalk hf hseq
  rw [List.drop_eq_nil_of_le hlen, phaseWalk] at hph
  exact (Option.some.inj hph).trans (hidle hs)

theorem issue_busy (op : MicroOp) (n : Nat) (s : State) : (issue op n s).busy = s.busy := by
  obtain ⟨c, -, h⟩ | ⟨-, h⟩ := issue_cases op n s
  · rw [h, raiseFault_busy]
  · obtain ⟨-, hb, -⟩ := effect_frame op s
    rw [h, hb]

/-- Only the end of the command makes the block not busy (R41). -/
theorem sequencerStep_idleAtEnd {s t : State} {i : Instr} (hs : isSensor i = true) (h : IdleAtEnd i s)
    (hst : sequencerStep s = some t) : IdleAtEnd i t := by
  obtain ⟨hinv, hcur, -⟩ := h
  obtain ⟨hcur', -⟩ := sequencerStep_sameCommand hst
  obtain ⟨hb, hf, hcase⟩ := sequencerStep_cases hst
  refine ⟨sequencerStep_inv hinv hst, hcur'.trans hcur, fun hbt => ?_⟩
  obtain ⟨-, -, rfl⟩ | ⟨-, op, -, rfl⟩ | ⟨-, hop, rfl⟩ := hcase
  · obtain ⟨-, hb', -⟩ := post_frame s.wst s
    simp [hb', hb] at hbt
  · simp [issue_busy, hb] at hbt
  · exact phase_at_end (s := s) hinv hs hcur hb hf hop

theorem runBlock_idleAtEnd {s : State} {i : Instr} (hs : isSensor i = true) (h : IdleAtEnd i s) :
    IdleAtEnd i (runBlock s) := by
  refine runBlock_induction s h (fun _ _ => sequencerStep_idleAtEnd hs) ?_ ?_
  · rintro u a ⟨hinv, hcur, -⟩ hb hf ha
    have ha' : a.enabled (takeTurns 1 u) = true := by rw [enabled_takeTurns]; exact engineAction_enabled ha
    obtain ⟨-, hb', hcur', -⟩ := perform_frame a (takeTurns 1 u)
    exact ⟨perform_inv (takeTurns_inv hinv 1) hb hf ha', hcur'.trans hcur,
      fun hbt => by simp [hb', hb] at hbt⟩
  · rintro u ⟨hinv, hcur, hidle⟩
    exact ⟨takeTurns_inv hinv 1, hcur, hidle⟩

end Sys2Proof.Machine
end

section
/-! PROOF. Reads and writes of the channel registers (10_state.md R21). -/

namespace Sys2Proof.Machine

theorem Channels.get_set_same (chs : Channels) (v : Option Half) (c : Channel) : (chs.set v c).get c = v := by
  cases c <;> rfl

theorem Channels.get_set_ne (chs : Channels) (v : Option Half) {c d : Channel} (h : d ≠ c) :
    (chs.set v c).get d = chs.get d := by
  cases c <;> cases d <;> simp [Channels.set, Channels.get] at h ⊢

end Sys2Proof.Machine
end

section
/-! PROOF. The sensor commands that make several transactions (41_sensor_protocol.md R153 to R155): each transaction in
its place, with the peer's answers counted from the command's issue. -/

namespace Sys2Proof.Machine

/-! ### The peer's answers counted from an earlier state -/

section

variable {s t : State} {n a b : Nat}

theorem ackAhead_of_taken (ht : t.env = envTaken n a b s.env) (k : Nat) : t.ackAhead k = s.ackAhead (a + k) := by
  rw [State.ackAhead, State.ackAhead, ht, envTaken, look_take]

theorem byteAhead_of_taken (ht : t.env = envTaken n a b s.env) (j : Nat) : t.byteAhead j = s.byteAhead (b + j) := by
  rw [State.byteAhead, State.byteAhead, ht, envTaken, look_take]

theorem params_of_taken (ht : t.env = envTaken n a b s.env) : t.env.params = s.env.params := by
  rw [ht, envTaken]

theorem writeEvents_of_taken (ht : t.env = envTaken n a b s.env) (k : Nat) (r v : Byte) :
    writeEvents t k r v = writeEvents s (a + k) r v := by
  simp only [writeEvents, wireAddrW, params_of_taken ht, ackAhead_of_taken ht, Nat.add_assoc]

theorem readEvents_of_taken (ht : t.env = envTaken n a b s.env) (k j : Nat) (r : Byte) :
    readEvents t k j r = readEvents s (a + k) (b + j) r := by
  simp only [readEvents, wireAddrW, wireAddrR, params_of_taken ht, ackAhead_of_taken ht, byteAhead_of_taken ht,
    Nat.add_assoc]

theorem envTaken_of_taken (ht : t.env = envTaken n a b s.env) (m c d : Nat) :
    envTaken m c d t.env = envTaken (n + m) (a + c) (b + d) s.env := by
  simp only [ht, envTaken, take_take]

end

/-! ### What each transaction leaves -/

/-- `t` after one register write whose acknowledge bits are the peer's answers from the `a`-th after `s` on (R151). -/
def writeDone (s : State) (n a : Nat) (r v : Byte) (t : State) : State :=
  { t with
    seq := t.seq + 9, trace := t.trace ++ writeEvents s a r v, buf := some v, ackstat := s.ackAhead (a + 2),
    env := envTaken n (a + 3) 0 s.env }

/-- `t` after one register read whose acknowledge bits are the peer's answers from the `a`-th after `s` on, and whose
byte is the `b`-th (R152). -/
def readDone (s : State) (n a b : Nat) (r : Byte) (t : State) : State :=
  { t with
    seq := t.seq + 13, trace := t.trace ++ readEvents s a b r, buf := some (s.byteAhead b),
    rb := some (s.byteAhead b), res := some ((0#8) ++ s.byteAhead b), ackstat := s.ackAhead (a + 2),
    env := envTaken n (a + 3) (b + 1) s.env }

/-- `t` after one 16-bit read, whose two register reads take the peer's answers one after the other (R153). -/
def read16Done (s : State) (n a b : Nat) (r : Byte) (t : State) : State :=
  { t with
    seq := t.seq + 29, trace := t.trace ++ readEvents s a b r ++ readEvents s (a + 3) (b + 1) (r + 1),
    buf := some (s.byteAhead (b + 1)), rb := some (s.byteAhead (b + 1)), lo := some (s.byteAhead b),
    hi := some (s.byteAhead (b + 1)), res := some (reading s b), ackstat := s.ackAhead (a + 5),
    env := envTaken n (a + 6) (b + 2) s.env }

/-- `t` after one channel's part of `READ_CHANNELS` (R154). -/
def channelDone (s : State) (n a b : Nat) (c : Channel) (t : State) : State :=
  opDone (.uStch c) (read16Done s n a b (channelReg c) t)

/-! ### One transaction after another -/

/-- The micro-ops `ops`, each as a whole, take the state `u` to `t`. -/
def RunsTo (ops : List MicroOp) (u t : State) : Prop := ops.foldl (fun s op => opDone op s) u = t

theorem RunsTo.refl (t : State) : RunsTo [] t t := rfl

theorem RunsTo.append {xs ys : List MicroOp} {u t w : State} (h : RunsTo xs u t) (h' : RunsTo ys t w) :
    RunsTo (xs ++ ys) u w := by
  rw [RunsTo, List.foldl_append, h, h']

/-- A sensor command that finds the bus idle runs its micro-ops as a whole, and ends. -/
theorem exec_of_runsTo {s t : State} {i : Instr} (h : Ready s) (hi : s.init = true) (hph : s.phase = .idle)
    (ht : Prompt (turnsEnough i) s) (hs : isSensor i = true)
    (hrun : RunsTo (expand s.env.params i) (beginCommand (encode i) (expand s.env.params i) s) t) :
    exec i s = .next (endCommand t) := by
  rw [exec_sensor h hi hph ht hs, hrun]

section

variable {s u t : State} {n a b : Nat} {ops : List MicroOp}

theorem RunsTo.op (h : RunsTo ops u t) (op : MicroOp) : RunsTo (ops ++ [op]) u (opDone op t) := h.append rfl

theorem RunsTo.writeReg (h : RunsTo ops u t) (ht : t.env = envTaken n a 0 s.env) (hph : t.phase = .idle) (r v : Byte) :
    ∃ m, RunsTo (ops ++ expandWriteReg s.env.params r v) u (writeDone s m a r v t) := by
  obtain ⟨m, hm⟩ := foldl_writeReg t r v hph
  refine ⟨n + m, h.append ?_⟩
  rw [RunsTo, ← params_of_taken ht, hm, writeEvents_of_taken ht, ackAhead_of_taken ht, envTaken_of_taken ht]
  rfl

theorem RunsTo.readReg (h : RunsTo ops u t) (ht : t.env = envTaken n a b s.env) (hph : t.phase = .idle) (r : Byte) :
    ∃ m, RunsTo (ops ++ expandReadReg s.env.params r) u (readDone s m a b r t) := by
  obtain ⟨m, hm⟩ := foldl_readReg t r hph
  refine ⟨n + m, h.append ?_⟩
  rw [RunsTo, ← params_of_taken ht, hm, readEvents_of_taken ht, ackAhead_of_taken ht, byteAhead_of_taken ht,
    envTaken_of_taken ht]
  rfl

/-- The low byte's read and its move, the high byte's read and its move, and the composition. -/
theorem RunsTo.read16 (h : RunsTo ops u t) (ht : t.env = envTaken n a b s.env) (hph : t.phase = .idle) (r : Byte) :
    ∃ m, RunsTo (ops ++ expandRead16 s.env.params r) u (read16Done s m a b r t) := by
  obtain ⟨k, hlow⟩ := (RunsTo.refl t).readReg ht hph r
  obtain ⟨m, hhigh⟩ := (hlow.op .uMovLo).readReg (s := s) (n := k) (a := a + 3) (b := b + 1) rfl hph (highReg r)
  have hdone : opDone .uCompose (opDone .uMovHi (readDone s m (a + 3) (b + 1) (highReg r)
      (opDone .uMovLo (readDone s k a b r t)))) = read16Done s m a b r t := by
    simp [opDone, readDone, read16Done, composeRegs, compose16_eq_append, reading, highReg]
  have hrun := (hhigh.op .uMovHi).op .uCompose
  rw [hdone, List.append_assoc] at hrun
  exact ⟨m, h.append hrun⟩

theorem RunsTo.channel (h : RunsTo ops u t) (ht : t.env = envTaken n a b s.env) (hph : t.phase = .idle) (c : Channel) :
    ∃ m, RunsTo (ops ++ expandChannel s.env.params c) u (channelDone s m a b c t) := by
  obtain ⟨m, hm⟩ := (RunsTo.refl t).read16 ht hph (channelReg c)
  exact ⟨m, h.append (hm.op (.uStch c))⟩

/-! ### The commands of several transactions -/

/-- The four channels in order (R154). -/
theorem runsTo_readChannels (ht : t.env = s.env) (hph : t.phase = .idle) :
    ∃ n₁ n₂ n₃ n₄, RunsTo (expandReadChannels s.env.params) t
      (channelDone s n₄ 18 6 .blue (channelDone s n₃ 12 4 .green (channelDone s n₂ 6 2 .red
        (channelDone s n₁ 0 0 .clear t)))) := by
  obtain ⟨n₁, h₁⟩ := (RunsTo.refl t).channel (n := 0) (a := 0) (b := 0) ht hph .clear
  obtain ⟨n₂, h₂⟩ := h₁.channel (s := s) (n := n₁) (a := 6) (b := 2) rfl hph .red
  obtain ⟨n₃, h₃⟩ := h₂.channel (s := s) (n := n₂) (a := 12) (b := 4) rfl hph .green
  obtain ⟨n₄, h₄⟩ := h₃.channel (s := s) (n := n₃) (a := 18) (b := 6) rfl hph .blue
  exact ⟨n₁, n₂, n₃, n₄, h₄⟩

/-- The four writes in order, with the power delay after the first (R155). -/
theorem runsTo_enable (ht : t.env = s.env) (hph : t.phase = .idle) :
    ∃ n₁ n₂ n₃ n₄, RunsTo (expandEnable s.env.params) t
      (writeDone s n₄ 9 regGain s.env.params.gainUnity (writeDone s n₃ 6 regAtime s.env.params.atimeLongest
        (writeDone s n₂ 3 regEnable enPonAen (opDone (.uDelay .power) (writeDone s n₁ 0 regEnable enPon t))))) := by
  obtain ⟨n₁, h₁⟩ := (RunsTo.refl t).writeReg (n := 0) (a := 0) ht hph regEnable enPon
  obtain ⟨n₂, h₂⟩ := (h₁.op (.uDelay .power)).writeReg (s := s) (n := n₁) (a := 3) rfl hph regEnable enPonAen
  obtain ⟨n₃, h₃⟩ := h₂.writeReg (s := s) (n := n₂) (a := 6) rfl hph regAtime s.env.params.atimeLongest
  obtain ⟨n₄, h₄⟩ := h₃.writeReg (s := s) (n := n₃) (a := 9) rfl hph regGain s.env.params.gainUnity
  exact ⟨n₁, n₂, n₃, n₄, h₄⟩

end

end Sys2Proof.Machine
end

section
/-! PROOF. The statements on the sensor commands (41_sensor_protocol.md). -/

namespace Sys2Proof.Proofs

open Sys2Proof.Machine

/-- Settles O34, move by move. -/
theorem delaysAndMoves : Obligations.DelaysAndMoves := by
  refine ⟨fun n s => ⟨fun _ => rfl, rfl, rfl, fun hi lo hhi hlo => ?_, fun c => ?_⟩, fun _ => ⟨rfl, rfl, rfl⟩⟩
  · rw [issue_uCompose n hhi hlo, compose16_eq_append]
  · exact ⟨s.ch.get_set_same s.res c, rfl, fun _ hd => s.ch.get_set_ne s.res hd⟩

/-- Settles O26: the command is one register write. -/
theorem writeRegCompletes : Obligations.WriteRegCompletes :=
  fun r v _ => exec_writeReg r v

/-- Settles O27: the command is one register read. -/
theorem readRegCompletes : Obligations.ReadRegCompletes :=
  fun r _ => exec_readReg r

/-- Settles O28: the command is one 16-bit read. -/
theorem read16Completes : Obligations.Read16Completes := by
  intro r s h hi hph ht
  obtain ⟨n, hrun⟩ :=
    (RunsTo.refl (beginCommand (encode (.read16 r)) (expandRead16 s.env.params r) s)).read16 (s := s) (n := 0) (a := 0)
      (b := 0) rfl hph r
  exact ⟨n, exec_of_runsTo (i := .read16 r) h hi hph ht rfl hrun⟩

/-- Settles O29: the command is four 16-bit reads, each assigned to its channel. -/
theorem readChannelsCompletes : Obligations.ReadChannelsCompletes := by
  intro s h hi hph ht
  obtain ⟨_, _, _, n, hrun⟩ := runsTo_readChannels (s := s)
    (t := beginCommand (encode .readChannels) (expandReadChannels s.env.params) s) rfl hph
  refine ⟨n, ?_⟩
  rw [exec_of_runsTo (i := .readChannels) h hi hph ht rfl hrun]
  simp [channelDone, read16Done, opDone, beginCommand, endCommand, commandDone, expand, Channels.set, channelReg,
    regCdata, regRdata, regGdata, regBdata]

/-- Settles O30: the command is four register writes, with a delay after the first. -/
theorem enableCompletes : Obligations.EnableCompletes := by
  intro s h hi hph ht
  obtain ⟨_, _, _, n, hrun⟩ := runsTo_enable (s := s)
    (t := beginCommand (encode .enable) (expandEnable s.env.params) s) rfl hph
  refine ⟨n, ?_⟩
  rw [exec_of_runsTo (i := .enable) h hi hph ht rfl hrun]
  simp [writeDone, opDone, beginCommand, endCommand, commandDone, expand, emit, regEnable, regAtime, regGain, enPon,
    enPonAen]

/-- Settles O31: the command is one register write. -/
theorem disableCompletes : Obligations.DisableCompletes := by
  intro s h hi hph ht
  obtain ⟨n, hrun⟩ := foldl_writeReg (beginCommand (encode .disable) (expandDisable s.env.params) s) regEnable enOff hph
  exact ⟨n, exec_of_runsTo (i := .disable) h hi hph ht rfl hrun⟩

/-- Settles O32: a busy block runs on, and an idle one begins the command; at its end the walk of its phases is over. -/
theorem sensorCommandsReturnToIdle : Obligations.SensorCommandsReturnToIdle := by
  intro i s t h hs hcmd hst hbt
  suffices hend : IdleAtEnd i t by
    obtain ⟨-, -, hidle⟩ := hend
    exact hidle hbt
  obtain ⟨hf, -⟩ := step_cases hst
  obtain ⟨hb, hcur⟩ | ⟨hb, hd, hw⟩ := hcmd
  · cases (step_of_busy hb hf).symm.trans hst
    exact runBlock_idleAtEnd hs ⟨h, hcur, fun hb' => by simp [hb] at hb'⟩
  · cases ((step_of_command hb hf hd hw (decode_encode i)).trans (exec_eq_runBlock i s)).symm.trans hst
    exact runBlock_idleAtEnd hs ⟨beginCommand_inv i h hb (cp_lt_of_fetchWord hw), rfl, fun hb' => nomatch hb'⟩

end Sys2Proof.Proofs
end

section
/-! PROOF. Which commands fault at their first micro-op (60_exceptions.md R183), by the checks of 40_transport.md R120. -/

namespace Sys2Proof.Machine

/-- Before `INIT` every transport micro-op but `uINIT` fails its check (R120). -/
theorem check_before_init {op : MicroOp} {s : State} (ht : op.isTransport = true) (hne : op ≠ .uInit)
    (hi : s.init = false) : op.check s = some .notInit := by
  cases op
  case uInit => exact absurd rfl hne
  all_goals simp_all [MicroOp.check]

/-- A second `uINIT` fails its check (R120, R121). -/
theorem check_second_uInit {s : State} (hi : s.init = true) : MicroOp.uInit.check s = some .reinit := by
  simp [MicroOp.check, hi]

/-- After `INIT` a transport micro-op fails its check in the phases that do not accept it (R120). -/
theorem check_of_not_accepted {op : MicroOp} {s : State} (ht : op.isTransport = true) (hne : op ≠ .uInit)
    (hi : s.init = true) (hacc : op.acceptedIn s.phase = false) : op.check s = some .protocol := by
  cases op
  case uInit => exact absurd rfl hne
  all_goals simp_all [MicroOp.check]

/-- The phases in which a command is misused are among those that do not accept its first micro-op (R120, R183). -/
theorem not_accepted_of_misused {p : Params} {i : Instr} {op : MicroOp} {ops : List MicroOp} {ph : Phase}
    (he : expand p i = op :: ops) (h : ph ∈ misusedIn i) : op.acceptedIn ph = false := by
  cases i
  case init | idle => simp [misusedIn] at h
  all_goals
    obtain ⟨rfl, -⟩ := List.cons.inj he
    cases ph <;> simp [misusedIn, MicroOp.acceptedIn] at h ⊢

end Sys2Proof.Machine
end

section
/-! PROOF. How a busy block rests, and why it does not rest busy for ever on a healthy bus (60_exceptions.md R186): each
turn that an agent takes lowers `work`, and a postponement leaves all but the schedule as it was. -/

namespace Sys2Proof.Machine

/-! ### Where the run of the block rests -/

theorem engineAction_eq_none_iff (s : State) : engineAction s = none ↔ ∀ a : EngineAction, a.enabled s = false :=
  ⟨enabled_eq_false_of_engineAction_eq_none, fun h => List.find?_eq_none.mpr fun a _ => by simp [h a]⟩

/-- Where neither agent has a step the run of the block leaves the state as it is. -/
theorem runBlock_stuck {s : State} (ha : engineAction s = none) (hseq : sequencerStep s = none) : runBlock s = s := by
  apply runBlock_of_rested
  simp [blockTurn, ha, hseq]

/-- A busy block without a fault rests where the engine postpones its step, or where neither agent has one. -/
theorem blockTurn_rested {s t : State} (hb : s.busy = true) (hf : s.fault = none) (h : blockTurn s = .rested t) :
    (engineAction s ≠ none ∧ t = takeTurns 1 s) ∨ (engineAction s = none ∧ sequencerStep s = none) := by
  rw [blockTurn, if_neg (by simp [hb, hf])] at h
  cases ha : engineAction s with
  | some a =>
    simp only [ha, contestedTurn] at h
    refine .inl ⟨by simp, ?_⟩
    cases ht : s.turnAhead 0 with
    | pause => simpa [ht] using h.symm
    | engineFirst => simp [ht] at h
    | sequencerFirst => cases hs : sequencerStep (takeTurns 1 s) <;> simp [ht, hs] at h
  | none =>
    cases hs : sequencerStep s with
    | some u => simp [ha, hs] at h
    | none => exact .inr ⟨rfl, rfl⟩

/-- In an invariant state a hold that the engine does not act on has met its condition (R42, R70). -/
theorem cond_of_engineAction_eq_none {s : State} (h : BlockInv s) (ha : engineAction s = none) :
    s.cond s.wst = true := by
  by_cases hne : s.wst = .none
  · rw [hne]
    rfl
  have hm := h.master (h.heldInit hne)
  have hoff := (engineAction_eq_none_iff s).mp ha
  have hflags := h.flags
  cases hw : s.wst <;> simp only [FlagsMatchHold, hw, Quiescent] at hflags
  case none => exact absurd hw hne
  case wSen => simpa [EngineAction.enabled, hm, State.cond] using hoff .start
  case wRsen => simpa [EngineAction.enabled, hm, State.cond] using hoff .restart
  case wPen => simpa [EngineAction.enabled, hm, State.cond] using hoff .stop
  case wAcken => simpa [EngineAction.enabled, hm, State.cond] using hoff .ackSequence
  case wBf0 =>
    have hshift := hoff .shift
    simp_all [EngineAction.enabled, State.cond]
  case wIdle =>
    have hclock := hoff .ackClock
    simp_all [EngineAction.enabled, State.cond, State.idleCond, State.conditionArmed]
  case wBf1 =>
    have hreceive := hoff .receive
    simp_all [EngineAction.enabled, State.cond]

/-- In an invariant state the two agents are never both without a step while the block is busy (R70, R186). -/
theorem sequencerStep_isSome_of_engineAction_eq_none {s : State} (h : BlockInv s) (hb : s.busy = true)
    (hf : s.fault = none) (ha : engineAction s = none) : (sequencerStep s).isSome = true := by
  by_cases hw : s.wst = .none
  · cases hop : s.mp[s.seq]? with
    | some op => rw [sequencerStep_of_next hb hf hw hop, Option.isSome_some]
    | none => rw [sequencerStep_of_end hb hf hw hop, Option.isSome_some]
  · rw [sequencerStep_of_held hb hf rfl hw, if_pos (cond_of_engineAction_eq_none h ha), Option.isSome_some]

/-! ### The work left -/

theorem work_runBlock_le (s : State) : work (runBlock s) ≤ work s := by
  refine runBlock_induction (P := fun t => work t ≤ work s) s le_rfl ?_ ?_ (fun _ hu => hu)
  · intro u t hu ht
    exact (work_sequencerStep_lt ht).le.trans hu
  · intro u a hu _ _ ha
    have ha' : a.enabled (takeTurns 1 u) = true := by rw [enabled_takeTurns]; exact engineAction_enabled ha
    exact (work_perform_lt a (takeTurns 1 u) ha').le.trans hu

/-- The run of a busy block is one postponed engine step, or lowers the work. -/
theorem runBlock_postponed_or_work_lt {s : State} (h : BlockInv s) (hb : s.busy = true) (hf : s.fault = none) :
    (engineAction s ≠ none ∧ runBlock s = takeTurns 1 s) ∨ work (runBlock s) < work s := by
  cases hturn : blockTurn s with
  | went t =>
    rw [runBlock_of_went hturn]
    exact .inr ((work_runBlock_le t).trans_lt (work_blockTurn_lt hturn))
  | rested t =>
    rw [runBlock_of_rested hturn]
    obtain hpause | ⟨ha, hs⟩ := blockTurn_rested hb hf hturn
    · exact .inl hpause
    · simpa [hs] using sequencerStep_isSome_of_engineAction_eq_none h hb hf ha

/-! ### Runs -/

theorem advance_of_busy {s : State} (hb : s.busy = true) (hf : s.fault = none) : advance s = runBlock s := by
  rw [advance, step_of_busy hb hf]

theorem advance_inv {s : State} (h : BlockInv s) : BlockInv (advance s) := by
  unfold advance
  split
  · rename_i t hst
    exact step_inv h hst
  · exact h
  · exact h

/-- Every state of a run from an invariant state is one. -/
theorem trajectory_inv {s : State} (h : BlockInv s) (n : Nat) : BlockInv (trajectory s n) := by
  induction n with
  | zero => exact h
  | succ n ih => exact advance_inv ih

/-- A state that steps to itself stays for ever. -/
theorem trajectory_of_advance_eq_self {s : State} (h : advance s = s) (n : Nat) : trajectory s n = s := by
  induction n with
  | zero => rfl
  | succ n ih => rw [trajectory, ih, h]

/-- Neither the progress mark nor the work left reads the schedule. -/
theorem progressMark_eq_of_withoutTurns_eq {s t : State} (h : withoutTurns t = withoutTurns s) :
    progressMark t = progressMark s := by
  change progressMark (withoutTurns t) = progressMark (withoutTurns s)
  rw [h]

theorem work_eq_of_withoutTurns_eq {s t : State} (h : withoutTurns t = withoutTurns s) : work t = work s := by
  change work (withoutTurns t) = work (withoutTurns s)
  rw [h]

/-- On a healthy bus no run hangs: where the work left is least the engine has a step, every later state differs in the
schedule alone, and so the step stays enabled with no progress. -/
theorem not_hangs {s : State} (h : BlockInv s) (hhealthy : BusHealthy s) : ¬ Hangs s := by
  rintro ⟨n₀, hhang⟩
  obtain ⟨n, hn, hleast⟩ := (measure fun m => work (trajectory s m)).wf.has_min (Set.Ici n₀) Set.nonempty_Ici
  have hrun : ∀ m, n ≤ m →
      (engineAction (trajectory s m) ≠ none ∧ trajectory s (m + 1) = takeTurns 1 (trajectory s m)) ∨
        work (trajectory s (m + 1)) < work (trajectory s m) := by
    intro m hm
    obtain ⟨hb, hf⟩ := hhang m (le_trans hn hm)
    rw [trajectory, advance_of_busy hb hf]
    exact runBlock_postponed_or_work_lt (trajectory_inv h m) hb hf
  have hstays : ∀ m, n ≤ m → withoutTurns (trajectory s m) = withoutTurns (trajectory s n) := by
    intro m hm
    induction m, hm using Nat.le_induction with
    | base => rfl
    | succ m hm ih =>
      obtain ⟨-, hpause⟩ | hlt := hrun m hm
      · rw [hpause]
        exact ih
      · rw [work_eq_of_withoutTurns_eq ih] at hlt
        exact absurd hlt (hleast (m + 1) (le_trans hn (Nat.le_succ_of_le hm)))
  obtain ⟨hact, -⟩ | hlt := hrun n le_rfl
  · obtain ⟨m, hm, hmark⟩ := hhealthy n hact
    exact hmark (progressMark_eq_of_withoutTurns_eq (hstays m hm.le))
  · exact hleast (n + 1) (le_trans hn n.le_succ) hlt

end Sys2Proof.Machine
end

section
/-! PROOF. The statements on faults and hangs (60_exceptions.md). -/

namespace Sys2Proof.Proofs

open Sys2Proof.Machine

/-- Settles O51: a command that neither faults nor completes is a hang, and a healthy bus has none. -/
theorem healthyBusCompletesCommands : Obligations.HealthyBusCompletesCommands := by
  refine ⟨fun s h _ _ hhealthy => ?_, fun s h hhealthy => not_hangs h hhealthy⟩
  by_contra hnever
  push Not at hnever
  refine not_hangs h hhealthy ⟨0, fun m _ => ?_⟩
  obtain ⟨hf, hb⟩ := hnever m
  exact ⟨by simpa using hb, hf⟩

/-- Settles O41: a pause takes one scheduling choice, and in either hang no agent has a step. -/
theorem heldBlockStays : Obligations.HeldBlockStays := by
  refine fun s hb hf => ⟨?_, ?_⟩
  · rintro ⟨a, hen⟩ hpause
    cases hact : engineAction s with
    | none => simp [(engineAction_eq_none_iff s).mp hact a] at hen
    | some b =>
      rw [step_of_busy hb hf, runBlock_pause hb hf hact hpause]
      rfl
  · intro hoff hheld
    have hw : s.wst ≠ .none := by
      obtain ⟨hw, -⟩ | ⟨hw, -⟩ := hheld <;> simp [hw]
    have hcond : s.cond s.wst = false := by
      obtain ⟨hw, hwcol⟩ | ⟨hw, hbf, -⟩ := hheld
      · simp [hw, State.cond, State.idleCond, hwcol]
      · simp [hw, State.cond, hbf]
    have hstays : advance s = s :=
      (advance_of_busy hb hf).trans
        (runBlock_stuck ((engineAction_eq_none_iff s).mpr hoff) (sequencerStep_held hw hcond))
    have htraj := trajectory_of_advance_eq_self hstays
    exact ⟨htraj, 0, fun m _ => by rw [htraj m]; exact ⟨hb, hf⟩⟩

/-- Settles O17: the first micro-op is a transport micro-op, and is not `uINIT`. -/
theorem notInitFault : Obligations.NotInitFault := by
  intro i s h hi hne
  obtain ⟨op, ops, he, ht⟩ := expand_first s.env.params i
  have hop : op ≠ .uInit := by
    rintro rfl
    exact hne (eq_init_of_expand he)
  exact exec_of_check_fails h he (check_before_init ht hop hi)

/-- Settles O18: the one micro-op is `uINIT`, whose check fails once `init` is set. -/
theorem reinitFault : Obligations.ReinitFault :=
  fun _ h hi => exec_of_check_fails h rfl (check_second_uInit hi)

/-- Settles O19: the phase does not accept the first micro-op. -/
theorem protocolFault : Obligations.ProtocolFault := by
  intro i s h hi hph
  obtain ⟨op, ops, he, ht⟩ := expand_first s.env.params i
  have hop : op ≠ .uInit := by
    rintro rfl
    simp [eq_init_of_expand he, misusedIn] at hph
  exact exec_of_check_fails h he (check_of_not_accepted ht hop hi (not_accepted_of_misused he hph))

/-- Settles O14: a recorded fault is the step's own outcome. -/
theorem faultedStateHasNoStep : Obligations.FaultedStateHasNoStep := by
  intro s r h
  simp [step, h]

end Sys2Proof.Proofs
end

section
/-! PROOF. The settling delays in the events of the two bus transactions (70_reset_and_hazards.md R221), and where the
host has no command left (R217). -/

namespace Sys2Proof.Machine

theorem traceDelayMicros_nil (p : Params) : traceDelayMicros p [] = 0 := rfl

theorem traceDelayMicros_cons (p : Params) (e : Event) (es : List Event) :
    traceDelayMicros p (e :: es) = e.delayMicros p + traceDelayMicros p es := by
  rw [traceDelayMicros, List.map_cons, List.sum_cons, ← traceDelayMicros]

theorem traceDelayMicros_append (p : Params) (xs ys : List Event) :
    traceDelayMicros p (xs ++ ys) = traceDelayMicros p xs + traceDelayMicros p ys := by
  rw [traceDelayMicros, List.map_append, List.sum_append, ← traceDelayMicros, ← traceDelayMicros]

theorem traceDelayMicros_delay (p : Params) (k : DelayKind) : traceDelayMicros p [.delay k] = delayMicros p k := rfl

/-- A register write settles after its start and after each of its three bytes (R151). -/
theorem traceDelayMicros_writeEvents (p : Params) (s : State) (k : Nat) (r v : Byte) :
    traceDelayMicros p (writeEvents s k r v) = 4 * p.dStep := by
  simp only [writeEvents, traceDelayMicros_cons, traceDelayMicros_nil, Event.delayMicros, delayMicros]
  omega

/-- A register read settles after each of its two conditions and three bytes, and after its stop (R152). -/
theorem traceDelayMicros_readEvents (p : Params) (s : State) (k j : Nat) (r : Byte) :
    traceDelayMicros p (readEvents s k j r) = 5 * p.dStep + 100000 := by
  simp only [readEvents, traceDelayMicros_cons, traceDelayMicros_nil, Event.delayMicros, delayMicros, settleMicros]
  omega

/-- The events of a command, read off any state that its meaning is known to answer. -/
theorem newEvents_of_exec {i : Instr} {s t u : State} {es : List Event} (hst : exec i s = .next t)
    (hex : exec i s = .next u) (htrace : u.trace = s.trace ++ es) : newEvents s t = es := by
  obtain rfl : u = t := Host.Outcome.next.inj (hex.symm.trans hst)
  exact newEvents_of_append htrace

/-- Past the program's last word the host has no command left (R24). -/
theorem fetchWord_of_runOver {s : State} (h : RunOver s) : fetchWord s = none := by
  obtain ⟨hcp, -, -⟩ := h
  exact List.getElem?_eq_none hcp.ge

end Sys2Proof.Machine
end

section
/-! PROOF. The statements on the end of a run and on timing (70_reset_and_hazards.md). -/

namespace Sys2Proof.Proofs

open Sys2Proof.Machine

/-- Settles O54: the delays of the bus transactions that the command's events are. -/
theorem delayLowerBounds : Obligations.DelayLowerBounds := by
  refine fun i s t h hi hph ht hst => ⟨?_, ?_, ?_, ?_⟩
  · rintro r rfl
    obtain ⟨_, hex⟩ := readRegCompletes r s h hi hph ht
    rw [newEvents_of_exec hst hex rfl, traceDelayMicros_readEvents]
  · rintro rfl
    obtain ⟨_, hex⟩ := readChannelsCompletes s h hi hph ht
    rw [newEvents_of_exec hst hex rfl]
    simp only [traceDelayMicros_append, traceDelayMicros_readEvents]
    omega
  · rintro r v rfl
    obtain ⟨_, hex⟩ := writeRegCompletes r v s h hi hph ht
    rw [newEvents_of_exec hst hex rfl, traceDelayMicros_writeEvents]
  · rintro rfl
    obtain ⟨_, hex⟩ := enableCompletes s h hi hph ht
    rw [newEvents_of_exec hst hex rfl]
    simp only [traceDelayMicros_append, traceDelayMicros_writeEvents, traceDelayMicros_delay, delayMicros]
    omega

/-- Settles O15: no word stands past the program's end, so the host waits; the phase alone tells the two ends apart. -/
theorem endedRunWaits : Obligations.EndedRunWaits := by
  intro s hover hd
  have ⟨_, hb, hf⟩ := hover
  exact ⟨step_of_waiting hb hf hd (fetchWord_of_runOver hover), and_iff_right hover, and_iff_right hover,
    fun hfault => hfault hf⟩

end Sys2Proof.Proofs
end
